-- ==== Sys2Proof/Word.lean ====
section
/-!
DEFINITION. Sys2Proof/Word.lean: the one data type of the machine, the unsigned cell (spec 00_scope.md R9,
10_state.md R30, 20_memory.md R36). DESIGN CHOICE (log 1): a cell value and a cell address are natural numbers, which
the width of a cell bounds; nothing in the machine is signed and no arithmetic is modular.
-/
namespace Sys2Proof

/-- The width of a memory cell: `W` bits, or unbounded, where a cell is any natural number (R5; 93 U8 lets a model
take `W` unbounded). -/
inductive CellWidth where
  | bits (w : Nat)
  | unbounded
deriving DecidableEq, Repr

/-- `v` is a value a cell of this width can hold: below `2^W` (R5). -/
def CellWidth.fits (c : CellWidth) (v : Nat) : Bool :=
  match c with
  | .bits w => decide (v < 2 ^ w)
  | .unbounded => true

end Sys2Proof
end

