-- ==== Sys2Proof/Config.lean ====
section
/-!
DEFINITION. Sys2Proof/Config.lean: what an implementation fixes (spec 00_scope.md R5, R6) and the constants that
are the same in every implementation (R7).
-/
namespace Sys2Proof

/-- The two named parameters of the block: `W` (R5) and `MEM_CELLS_MAX` (R6). -/
structure Params where
  width       : CellWidth
  memCellsMax : Nat
deriving DecidableEq, Repr

namespace Params

/-- The spec's own defaults: `W = 64` (R5), `MEM_CELLS_MAX = 65536` (R6). -/
def standard : Params := { width := .bits 64, memCellsMax := 65536 }

/-- `v` is a value a cell of the block can hold (R5). -/
def fits (p : Params) (v : Nat) : Bool := p.width.fits v

/-- The constraints on the parameters: `W >= 14` (R5) and `MEM_CELLS_MAX <= 2^W - 4` (R6). -/
def admissible (p : Params) : Bool :=
  match p.width with
  | .bits w => decide (14 ≤ w) && decide (p.memCellsMax + 4 ≤ 2 ^ w)
  | .unbounded => true

end Params

namespace Config

/-- `STRIDE`: cells the cursor advances after ADD or MUL (R7). -/
abbrev stride : Nat := 4
/-- `OP_ADD`: opcode cell value of ADD (R7). -/
abbrev opAdd : Nat := 1
/-- `OP_MUL`: opcode cell value of MUL (R7). -/
abbrev opMul : Nat := 2
/-- `OP_HALT`: opcode cell value of HALT (R7). -/
abbrev opHalt : Nat := 99
/-- `ENTRY`: cursor value at the start of every run (R7). -/
abbrev entry : Nat := 0
/-- `OUT_POS`: address of the output cell (R7). -/
abbrev outPos : Nat := 0
/-- `NOUN_POS`: address overwritten with noun (R7). -/
abbrev nounPos : Nat := 1
/-- `VERB_POS`: address overwritten with verb (R7). -/
abbrev verbPos : Nat := 2
/-- `SEARCH_BOUND`: noun and verb each range over 0 to `SEARCH_BOUND - 1` (R7; 99 by the document, 91 N13). -/
abbrev searchBound : Nat := 99
/-- `ANSWER_SCALE`: the answer is `ANSWER_SCALE * noun + verb` (R7). -/
abbrev answerScale : Nat := 100
/-- The cell width for which spec/opcode_table.json writes its match and mask (its notes: "written for W = 64"). -/
abbrev tableCellBits : Nat := 64

end Config
end Sys2Proof
end

