-- ==== Sys2Proof/Syntax.lean ====
section
/-!
DEFINITION. Sys2Proof/Syntax.lean: the instructions (spec 30_encoding.md R51, R56), one constructor per row of
spec/opcode_table.json, and the spec's assembler lines (R62).
-/
namespace Sys2Proof

/-- The three instructions. "Unrecognized" is the decoder's verdict and no instruction (R56, R57; 90 C7). -/
inductive Instr where
  /-- `ADD a, b, dest`, opcode 1, format Q (R52, R56). -/
  | add (a b dest : Nat)
  /-- `MUL a, b, dest`, opcode 2, format Q (R52, R56). -/
  | mul (a b dest : Nat)
  /-- `HALT`, opcode 99, format S (R53, R56). -/
  | halt
deriving DecidableEq, Repr

/-- A line of the spec's assembler notation: an instruction, or `.cell v`, one data cell (R62). -/
inductive AsmLine where
  | instr (i : Instr)
  | cell (v : Nat)
deriving DecidableEq, Repr

end Sys2Proof
end

