-- ==== Sys2Proof/WellFormed.lean ====
section
/-!
DEFINITION. Sys2Proof/WellFormed.lean: which instructions have an encoding. Every value of a field that a cell can
hold is legal (spec 30_encoding.md R58), so the one check is that each field is a cell value (R52).
-/
namespace Sys2Proof

/-- Every field of the instruction is a value one cell of the block can hold. -/
def Instr.wellFormed (p : Params) (i : Instr) : Bool :=
  match i with
  | .add a b dest => p.fits a && p.fits b && p.fits dest
  | .mul a b dest => p.fits a && p.fits b && p.fits dest
  | .halt => true

/-- Every cell an assembler line stands for is a cell value. -/
def AsmLine.wellFormed (p : Params) (l : AsmLine) : Bool :=
  match l with
  | .instr i => i.wellFormed p
  | .cell v => p.fits v

end Sys2Proof
end

