-- ==== Sys2Proof/Decode.lean ====
section
/-!
DEFINITION. Sys2Proof/Decode.lean: the decoder, total on every list of cells, and the encoder (spec 30_encoding.md).
-/
namespace Sys2Proof

/-- The four arms of the dispatch, a "closed set of variants" (spec 41 R77). -/
inductive OpcodeKind where
  | add
  | mul
  | halt
  | unrecognized
deriving DecidableEq, Repr

/-- Why no instruction stands at the head of a list of cells. -/
inductive DecodeError where
  /-- There is no opcode cell. -/
  | noOpcode
  /-- The opcode is 1 or 2 and fewer than three cells follow it (R52). -/
  | truncated
  /-- The opcode cell is none of 1, 2 and 99 (R57). -/
  | unrecognized
deriving DecidableEq, Repr

/-- What the decoder answers: an instruction and the cells after it, or the reason there is none. -/
inductive Decoded where
  | instr (i : Instr) (rest : List Nat)
  | error (e : DecodeError)
deriving DecidableEq, Repr

/-- The opcode map, by equality on the whole cell value (R54, R56). -/
def opcodeKind (op : Nat) : OpcodeKind :=
  if op = Config.opAdd then .add
  else if op = Config.opMul then .mul
  else if op = Config.opHalt then .halt
  else .unrecognized

/-- The number of operand cells after the opcode, told from the opcode cell alone (R59): three for ADD and MUL;
HALT and an unrecognized opcode read none (20 R41; 90 C1). -/
def operandCells (op : Nat) : Nat :=
  match opcodeKind op with
  | .add => 3
  | .mul => 3
  | .halt => 0
  | .unrecognized => 0

/-- The fields of format Q, in the order a, b, dest (R52). -/
def decodeQuad (mk : Nat → Nat → Nat → Instr) (cells : List Nat) : Decoded :=
  match cells with
  | a :: b :: dest :: rest => .instr (mk a b dest) rest
  | _ => .error .truncated

/-- The decoder: the instruction at the head of a list of cells and the cells that follow it (R54 to R59). -/
def decode (cells : List Nat) : Decoded :=
  match cells with
  | [] => .error .noOpcode
  | op :: rest =>
    match opcodeKind op with
    | .add => decodeQuad Instr.add rest
    | .mul => decodeQuad Instr.mul rest
    | .halt => .instr .halt rest
    | .unrecognized => .error .unrecognized

/-- The cells of an instruction, in address order (R52, R53, R62). -/
def encode (i : Instr) : List Nat :=
  match i with
  | .add a b dest => [Config.opAdd, a, b, dest]
  | .mul a b dest => [Config.opMul, a, b, dest]
  | .halt => [Config.opHalt]

/-- The cells of an assembler listing: each line's cells, in the order written (R62). -/
def assemble (ls : List AsmLine) : List Nat :=
  match ls with
  | [] => []
  | .instr i :: rest => encode i ++ assemble rest
  | .cell v :: rest => v :: assemble rest

/-- Cell `k` of an instruction whose bits are `w`, in the opcode table's numbering: cells of 64 bits, the first one
in the lowest bits. -/
def tableCell (w k : Nat) : Nat :=
  w / 2 ^ (Config.tableCellBits * k) % 2 ^ Config.tableCellBits

/-- The four cells of an instruction whose `nbits` bits are `w`; every bit above `nbits` is 0. -/
def tableCells (nbits w : Nat) : List Nat :=
  let v := w % 2 ^ nbits
  [tableCell v 0, tableCell v 1, tableCell v 2, tableCell v 3]

/-- Cells packed in the opcode table's numbering. -/
def packCells (cells : List Nat) : Nat :=
  match cells with
  | [] => 0
  | c :: cs => c + 2 ^ Config.tableCellBits * packCells cs

/-- The bits of an instruction in the opcode table's numbering. -/
def tableWord (i : Instr) : Nat := packCells (encode i)

/-- What the decoder reads from an instruction given in the opcode table's numbering. -/
def decodeTableWord (nbits w : Nat) : Option Instr :=
  match decode (tableCells nbits w) with
  | .instr i _ => some i
  | .error _ => none

end Sys2Proof
end

