-- ==== Sys2Proof/Machine/State.lean ====
section
/-!
DEFINITION. Sys2Proof/Machine/State.lean: everything the spec gives the machine (10_state.md), as plain data, the
reasons a step can stop, and the state after reset (R31).
-/
namespace Sys2Proof.Machine

/-- A memory of cells (R13, R14): address and cell value pairs, addresses strictly rising. An address that is not
listed has NO value (DESIGN CHOICE, log 3: R31 says its content is unspecified and gives it no value a proof can use). -/
abbrev Memory := List (Nat × Nat)

/-- `ENG`, the engine state (R19). -/
inductive Engine where
  /-- No run has started since reset or `LOAD`. -/
  | stopped
  /-- A run is in progress. -/
  | running
  /-- The run ended at a HALT. -/
  | halted
  /-- The run ended in a fault, whose kind is in `STATUS.CAUSE`. -/
  | faulted
deriving DecidableEq, Repr

/-- The three synchronous faults (60_exceptions.md R109). -/
inductive FaultKind where
  /-- The opcode cell holds a value other than 1, 2, 99 (60 R110). -/
  | processing
  /-- A checked access at an address `LEN` or beyond (60 R111). -/
  | boundary
  /-- The exact sum or product does not fit a cell (60 R112). -/
  | overflow
deriving DecidableEq, Repr

/-- `STATUS.STATE` (R23). -/
inductive BlockState where
  | idle
  | busy
  | done
  | error
deriving DecidableEq, Repr

/-- `STATUS.CAUSE` (R23). -/
inductive Cause where
  | none
  | processing
  | boundary
  | overflow
deriving DecidableEq, Repr

/-- `STATUS.OP` (R23). -/
inductive Op where
  | none
  | run
  | exec
  | search
deriving DecidableEq, Repr

/-- `STATUS` (CR0), its four fields (R23); the byte of R24 is `Status.byte`. -/
structure Status where
  state : BlockState
  cause : Cause
  op    : Op
  found : Bool
deriving DecidableEq, Repr

/-- `RESULT` (CR5), its two 7-bit fields (R28); the 14 bits are `SearchResult.bits`. -/
structure SearchResult where
  resNoun : BitVec 7
  resVerb : BitVec 7
deriving DecidableEq, Repr

/-- The four transient latches of the decoder (R18). -/
structure Latches where
  op : Nat
  a  : Nat
  b  : Nat
  d  : Nat
deriving DecidableEq, Repr

/-- The host commands that the sequencer carries out, and `LOAD` (42 R87). -/
inductive Command where
  /-- `LOAD(image)` (42 R88). -/
  | load (image : List Nat)
  /-- `RUN` (42 R89). -/
  | run
  /-- `EXEC(n, v)` (42 R90, R95). -/
  | exec (n v : Nat)
  /-- `SEARCH(t)` (42 R91, R96). -/
  | search (t : Nat)
deriving DecidableEq, Repr

/-- What the host does next (42 R87; DESIGN CHOICE, log 7). -/
inductive HostMove where
  /-- The host lets one step pass. -/
  | quiet
  /-- The host asserts `RESET` (70 R129), a command in progress or not. -/
  | reset
  /-- The host issues a command, as soon as the block is not `BUSY` (42 R107). -/
  | issue (c : Command)
deriving DecidableEq, Repr

/-- The state of the block. Two fields are the model's own: `params`, which nothing writes (log 2), and `host` (log 7). -/
structure State where
  /-- `W` and `MEM_CELLS_MAX` of this block (00_scope.md R5, R6); not state of the spec's, nothing writes it. -/
  params : Params
  /-- `SNAP`, the snapshot memory (R13). -/
  snap   : Memory
  /-- `MEM`, the working memory (R14). -/
  mem    : Memory
  /-- `LEN` (CR1), the program length (R15). -/
  len    : Nat
  /-- `CUR`, the cursor (R17). -/
  pc     : Nat
  /-- `IR.op`, `IR.a`, `IR.b`, `IR.d` (R18). -/
  ir     : Latches
  /-- `ENG` (R19). -/
  eng    : Engine
  /-- `STATUS` (CR0) (R23). -/
  status : Status
  /-- `TARGET` (CR2) (R27). -/
  target : Nat
  /-- `NOUN` (CR3) (R26). -/
  noun   : Nat
  /-- `VERB` (CR4) (R26). -/
  verb   : Nat
  /-- `RESULT` (CR5) (R28). -/
  result : SearchResult
  /-- `OUT` (CR7) (R22). -/
  out    : Nat
  /-- The moves the host has yet to make, the next one first; past the end it is quiet. -/
  host   : List HostMove
deriving DecidableEq, Repr

/-- Reasons the MODEL stops. The block's own three faults are no stops: their entry is a next state (60 R117). -/
inductive Fault where
  /-- A read of a cell below `LEN` that has no value. Raised by `memRead` and by the sequencer's read of address 0.
  R31 calls such a read impossible; no state that meets the invariant reaches it. Safe. -/
  | unwrittenCell
  /-- The block is `BUSY` and no rule gives it a move: the engine is `STOPPED` or `FAULTED`, or `STATUS.OP` is
  `NONE`. Raised by the sequencer; no state that meets the invariant reaches it. Safe. -/
  | noMove
deriving DecidableEq, Repr

/-- Reasons the model refuses. -/
inductive Refusal where
  /-- An instruction that has no meaning yet; raised by `exec` only. Safe. -/
  | notModelled (mnemonic : String)
  /-- `EXEC` with an argument that is no cell value, which no host can send (70 R134: "not representable").
  Raised when the command is taken up (log 9). Safe. -/
  | argumentTooWide
deriving DecidableEq, Repr

/-- `STATUS` after reset: `0x00` (R31). -/
def Status.reset : Status := { state := .idle, cause := .none, op := .none, found := false }

/-- `RESULT` after reset: `(0, 0)` (R31). -/
def SearchResult.reset : SearchResult := { resNoun := 0, resVerb := 0 }

/-- The latches after reset. DESIGN CHOICE (log 4), unsafe: R31 leaves them unspecified and never read before written. -/
def Latches.reset : Latches := { op := 0, a := 0, b := 0, d := 0 }

/-- The machine right after a hardware reset (R31, 70 R130): every value is the spec's but for `ir` (log 4), `params`
(the spec's defaults, log 2) and `host` (no move pending, log 7). -/
def State.reset : State where
  params := Params.standard
  snap   := []
  mem    := []
  len    := 0
  pc     := Config.entry
  ir     := Latches.reset
  eng    := .stopped
  status := Status.reset
  target := 0
  noun   := 0
  verb   := 0
  result := SearchResult.reset
  out    := 0
  host   := []

end Sys2Proof.Machine
end

