-- ==== Sys2Proof/Machine/Ops.lean ====
section
/-!
DEFINITION. Sys2Proof/Machine/Ops.lean: the named operations over memory and registers, and the entry of a fault.
-/
namespace Sys2Proof.Machine

/-! ## One write of each register -/

def State.setSnap (s : State) (m : Memory) : State := { s with snap := m }
def State.setMem (s : State) (m : Memory) : State := { s with mem := m }
def State.setLen (s : State) (n : Nat) : State := { s with len := n }
def State.setPc (s : State) (a : Nat) : State := { s with pc := a }
def State.setIr (s : State) (l : Latches) : State := { s with ir := l }
def State.setEng (s : State) (e : Engine) : State := { s with eng := e }
def State.setStatus (s : State) (x : Status) : State := { s with status := x }
def State.setTarget (s : State) (v : Nat) : State := { s with target := v }
def State.setNoun (s : State) (v : Nat) : State := { s with noun := v }
def State.setVerb (s : State) (v : Nat) : State := { s with verb := v }
def State.setResult (s : State) (r : SearchResult) : State := { s with result := r }
def State.setOut (s : State) (v : Nat) : State := { s with out := v }
def State.setHost (s : State) (h : List HostMove) : State := { s with host := h }

/-! ## One load of each latch (10 R18) -/

def Latches.loadOp (l : Latches) (v : Nat) : Latches := { op := v, a := l.a, b := l.b, d := l.d }
def Latches.loadA (l : Latches) (v : Nat) : Latches := { op := l.op, a := v, b := l.b, d := l.d }
def Latches.loadB (l : Latches) (v : Nat) : Latches := { op := l.op, a := l.a, b := v, d := l.d }
def Latches.loadD (l : Latches) (v : Nat) : Latches := { op := l.op, a := l.a, b := l.b, d := v }

/-! ## The bits of the control registers -/

/-- The code of `STATUS.STATE` (R23). -/
def BlockState.code (x : BlockState) : BitVec 2 :=
  match x with
  | .idle => 0
  | .busy => 1
  | .done => 2
  | .error => 3

/-- The code of `STATUS.CAUSE` (R23, 60 R109). -/
def Cause.code (x : Cause) : BitVec 2 :=
  match x with
  | .none => 0
  | .processing => 1
  | .boundary => 2
  | .overflow => 3

/-- The code of `STATUS.OP` (R23). -/
def Op.code (x : Op) : BitVec 2 :=
  match x with
  | .none => 0
  | .run => 1
  | .exec => 2
  | .search => 3

/-- `STATUS` as the byte of R24: bit 7 reads 0, bit 6 `FOUND`, `bits[5:4] = OP`, `bits[3:2] = CAUSE`, `bits[1:0] = STATE`. -/
def Status.byte (x : Status) : BitVec 8 :=
  (0 : BitVec 1) ++ BitVec.ofBool x.found ++ x.op.code ++ x.cause.code ++ x.state.code

/-- The combinations of the `STATUS` fields that occur (R25). -/
def Status.legal (x : Status) : Bool :=
  match x.state, x.cause, x.op, x.found with
  | .idle, .none, .none, false => true
  | .busy, .none, .run, false => true
  | .busy, .none, .exec, false => true
  | .busy, .none, .search, false => true
  | .done, .none, .run, false => true
  | .done, .none, .exec, false => true
  | .done, .none, .search, _ => true
  | .error, .processing, .run, false => true
  | .error, .processing, .exec, false => true
  | .error, .processing, .search, false => true
  | .error, .boundary, .run, false => true
  | .error, .boundary, .exec, false => true
  | .error, .boundary, .search, false => true
  | .error, .overflow, .run, false => true
  | .error, .overflow, .exec, false => true
  | .error, .overflow, .search, false => true
  | _, _, _, _ => false

/-- `STATUS` of a command in progress (42 R89, R95, R96). -/
def Status.inProgress (op : Op) : Status := { state := .busy, cause := .none, op := op, found := false }

/-- `STATUS` of a command that ended without a fault (42 R89, R95, R96). -/
def Status.completed (op : Op) (found : Bool) : Status := { state := .done, cause := .none, op := op, found := found }

/-- `RESULT` as its 14 bits: `RES_NOUN` is `bits[13:7]`, `RES_VERB` is `bits[6:0]` (R28). -/
def SearchResult.bits (r : SearchResult) : BitVec 14 := r.resNoun ++ r.resVerb

/-- The pair `(noun, verb)` written to `RESULT`'s 7-bit fields (R28, 42 R98). -/
def SearchResult.ofPair (n v : Nat) : SearchResult := { resNoun := BitVec.ofNat 7 n, resVerb := BitVec.ofNat 7 v }

/-- `ANSWER` (CR6), 14 bits, a function of `RESULT` and no storage element: `100 * RES_NOUN + RES_VERB` (R29). -/
def SearchResult.answer (r : SearchResult) : BitVec 14 :=
  BitVec.ofNat 14 (Config.answerScale * r.resNoun.toNat + r.resVerb.toNat)

/-! ## Memories of cells -/

/-- The value of the cell at `a`, if it has one. -/
def Memory.read (m : Memory) (a : Nat) : Option Nat :=
  match m with
  | [] => none
  | (b, w) :: rest => if b = a then some w else Memory.read rest a

/-- The memory with the cell at `a` set to `v` and every other cell unchanged, in canonical form. -/
def Memory.write (m : Memory) (a : Nat) (v : Nat) : Memory :=
  match m with
  | [] => [(a, v)]
  | (b, w) :: rest =>
    if a < b then (a, v) :: (b, w) :: rest
    else if a = b then (a, v) :: rest
    else (b, w) :: Memory.write rest a v

/-- The canonical form: addresses strictly rising. (An unlisted cell has no value, so no entry can equal it.) -/
def Memory.wf (m : Memory) : Bool :=
  match m with
  | [] => true
  | (a, _) :: rest =>
    (match rest with
      | [] => true
      | (b, _) :: _ => decide (a < b)) && Memory.wf rest

/-- The cells of `m` at addresses below `n`. -/
def Memory.below (m : Memory) (n : Nat) : Memory := m.filter (fun c => decide (c.1 < n))

/-- The cells of `m` at addresses `n` and beyond. -/
def Memory.beyond (m : Memory) (n : Nat) : Memory := m.filter (fun c => decide (n ≤ c.1))

/-- `dst` with its cells `0` to `n - 1` replaced by those of `src`: a copy loop in one piece (42 R93). -/
def Memory.copyBelow (src dst : Memory) (n : Nat) : Memory := src.below n ++ dst.beyond n

/-- A sequence of cell values as a memory, the first one at address `a`. -/
def Memory.ofCells (a : Nat) (vs : List Nat) : Memory :=
  match vs with
  | [] => []
  | v :: rest => (a, v) :: Memory.ofCells (a + 1) rest

/-! ## Accesses that can raise a fault -/

/-- What a piece of an instruction's pseudocode comes to: a value and the state so far; a `raise`, with the state at
that moment (00 R10); or a read of a cell that has no value (log 3). -/
inductive Access (α : Type) where
  | ok (v : α) (s : State)
  | raised (k : FaultKind) (s : State)
  | unwritten
deriving DecidableEq, Repr

/-- One piece of pseudocode after another: a `raise` ends the sequence at once (00 R10, 60 R115). -/
def Access.andThen {α β : Type} (x : Access α) (f : α → State → Access β) : Access β :=
  match x with
  | .ok v s => f v s
  | .raised k s => .raised k s
  | .unwritten => .unwritten

/-- `MemRead(addr, 1)` (20 R34). -/
def memRead (a : Nat) (s : State) : Access Nat :=
  if s.len ≤ a then .raised .boundary s
  else
    match s.mem.read a with
    | some v => .ok v s
    | none => .unwritten

/-- `MemWrite(addr, 1, v)` (20 R35): one cell changes, and never one at `LEN` or beyond. -/
def memWrite (a : Nat) (v : Nat) (s : State) : Access Unit :=
  if s.len ≤ a then .raised .boundary s
  else .ok () (s.setMem (s.mem.write a v))

/-- The cursor's advance after a completed ADD or MUL: always by `STRIDE` (41 R80). -/
def advancePc (s : State) : State := s.setPc (s.pc + Config.stride)

/-! ## Taking a fault -/

/-- The code that `STATUS.CAUSE` records for a fault (60 R109). -/
def FaultKind.cause (k : FaultKind) : Cause :=
  match k with
  | .processing => .processing
  | .boundary => .boundary
  | .overflow => .overflow

/-- What a `raise` does (60 R117, 00 R10): `ENG <- FAULTED`, and the enclosing command ends with
`STATUS <- (ERROR, cause, op, 0)`. Nothing is saved, no mode changes, control goes nowhere. There is no return from a
fault (60 R119): what follows is a new command. The command's end and the `raise` are one step (log 5). -/
def takeFault (k : FaultKind) (s : State) : State :=
  { s with eng := .faulted, status := { state := .error, cause := k.cause, op := s.status.op, found := false } }

/-- The outcome of a step whose pseudocode came to `x`. -/
def conclude (x : Access Unit) : Host.Outcome State Fault Refusal :=
  match x with
  | .ok _ s => .next s
  | .raised k s => .next (takeFault k s)
  | .unwritten => .fault .unwrittenCell

end Sys2Proof.Machine
end

