-- ==== Sys2Proof/Machine/Flags.lean ====
section
/-!
DEFINITION. Sys2Proof/Machine/Flags.lean: the `simple_alu` and the one condition it computes. The machine has no flags
and no condition codes (spec 10_state.md R20); overflow is a fault, never a stored bit (40 R69).
-/
namespace Sys2Proof.Machine

/-- The ALU's addition: the exact natural-number sum (40 R66, R68). -/
def aluAdd (x y : Nat) : Nat := x + y

/-- The ALU's multiplication: the exact natural-number product (40 R67, R68). -/
def aluMul (x y : Nat) : Nat := x * y

/-- The exact result does not fit a cell: it is `2^W` or more (40 R69). -/
def overflows (p : Params) (r : Nat) : Bool := !p.fits r

/-- The overflow test between the ALU and the destination write (40 R66, R67; 60 R115 order 8). -/
def checkResult (r : Nat) (s : State) : Access Nat :=
  if overflows s.params r then .raised .overflow s else .ok r s

end Sys2Proof.Machine
end

