-- ==== Sys2Proof/Machine/Operands.lean ====
section
/-!
DEFINITION. Sys2Proof/Machine/Operands.lean: the one operand form, absolute memory-direct (spec 30_encoding.md R55),
and the operand fetch of ADD and MUL (40 R65).
-/
namespace Sys2Proof.Machine

/-- The value of a source operand: the cell it names (30 R55; "operands are always addresses, never immediates"). -/
def sourceValue (a : Nat) (s : State) : Access Nat := memRead a s

/-- The two data reads of the operand fetch, a before b (40 R65). -/
def sourceValues (a b : Nat) (s : State) : Access (Nat × Nat) :=
  (sourceValue a s).andThen fun va s1 =>
  (sourceValue b s1).andThen fun vb s2 => .ok (va, vb) s2

/-- The write of a result to the destination operand, after every read (20 R41, 70 R135). -/
def storeDestination (d : Nat) (r : Nat) (s : State) : Access Unit := memWrite d r s

/-- One operand cell into its latch. -/
def latchCell (a : Nat) (load : Latches → Nat → Latches) (s : State) : Access Nat :=
  (memRead a s).andThen fun v s1 => .ok v (s1.setIr (load s1.ir v))

/-- The three operand cells of an ADD or MUL at the cursor, each into its latch, in the order a, b, d (40 R65, 30 R52). -/
def latchOperands (s : State) : Access (Nat × Nat × Nat) :=
  (latchCell (s.pc + 1) Latches.loadA s).andThen fun a s1 =>
  (latchCell (s.pc + 2) Latches.loadB s1).andThen fun b s2 =>
  (latchCell (s.pc + 3) Latches.loadD s2).andThen fun d s3 =>
  .ok (a, b, d) s3

end Sys2Proof.Machine
end

