-- ==== Sys2Proof/Machine/AddMul.lean ====
section
/-!
DEFINITION. Sys2Proof/Machine/AddMul.lean: ADD and MUL (spec 40_alu_add_mul.md), which differ only in the ALU function.
-/
namespace Sys2Proof.Machine

/-- The shared body of ADD and MUL (40 R66, R67): data reads, exact result, overflow test, destination write, advance. -/
def computeAndStore (alu : Nat → Nat → Nat) (a b d : Nat) (s : State) : Access Unit :=
  (sourceValues a b s).andThen fun v s1 =>
  (checkResult (alu v.1 v.2) s1).andThen fun r s2 =>
  (storeDestination d r s2).andThen fun _ s3 =>
  .ok () (advancePc s3)

/-- `ADD a, b, dest` (40 R66). -/
def execAdd (a b d : Nat) (s : State) : Host.Outcome State Fault Refusal :=
  conclude (computeAndStore aluAdd a b d s)

/-- `MUL a, b, dest` (40 R67). -/
def execMul (a b d : Nat) (s : State) : Host.Outcome State Fault Refusal :=
  conclude (computeAndStore aluMul a b d s)

end Sys2Proof.Machine
end

