-- ==== Sys2Proof/Machine/Halting.lean ====
section
/-!
DEFINITION. Sys2Proof/Machine/Halting.lean: HALT, the only instruction that is not a computation (spec 41 R78, R86).
-/
namespace Sys2Proof.Machine

/-- `HALT` (41 R78): `ENG <- HALTED`; memory and the cursor stay. The sequencer completes the command afterwards. -/
def execHalt (s : State) : Host.Outcome State Fault Refusal :=
  .next (s.setEng .halted)

end Sys2Proof.Machine
end

