-- ==== Sys2Proof/Machine/Fetch.lean ====
section
/-!
DEFINITION. Sys2Proof/Machine/Fetch.lean: the opcode fetch, the operand cells, the decoder's verdict (spec 41 R75 to
R79, 40 R65), and the placing of an instruction where the next step fetches.
-/
namespace Sys2Proof.Machine

/-- The fault that the decoder's verdict raises: an unrecognized opcode is a ProcessingError (41 R79); a missing cell
is a BoundaryFault (41 R76, 40 R65). -/
def decodeFault (e : DecodeError) : FaultKind :=
  match e with
  | .noOpcode => .boundary
  | .truncated => .boundary
  | .unrecognized => .processing

/-- The decoder applied to the cells of one instruction. -/
def decodeLatched (cells : List Nat) (s : State) : Access Instr :=
  match decode cells with
  | .instr i _ => .ok i s
  | .error e => .raised (decodeFault e) s

/-- The fetch after the opcode cell `op`: operand cells are read only if it is 1 or 2 (30 R59; 20 R41; 90 C1), then the
decoder gives its verdict. -/
def fetchRest (op : Nat) (s : State) : Access Instr :=
  match operandCells op with
  | 0 => decodeLatched [op] s
  | _ + 1 => (latchOperands s).andThen fun v s1 => decodeLatched [op, v.1, v.2.1, v.2.2] s1

/-- The fetch of one instruction at the cursor (41 R75): the opcode cell into `IR.op` (41 R76), then the rest. -/
def fetch (s : State) : Access Instr :=
  (latchCell s.pc Latches.loadOp s).andThen fetchRest

/-- The cells from address `a` on that are below `LEN` and have a value, at most `n` of them, up to the first that is
neither. -/
def cellsFrom (s : State) (a : Nat) (n : Nat) : List Nat :=
  match n with
  | 0 => []
  | k + 1 =>
    if s.len ≤ a then []
    else
      match s.mem.read a with
      | some v => v :: cellsFrom s (a + 1) k
      | none => []

/-- The cells at the cursor that can belong to one instruction: at most four (30 R51). -/
def State.window (s : State) : List Nat := cellsFrom s s.pc 4

/-- The latches after the fetch of an instruction: HALT loads `IR.op` only (10 R18). -/
def Latches.load (l : Latches) (i : Instr) : Latches :=
  match i with
  | .add a b dest => { op := Config.opAdd, a := a, b := b, d := dest }
  | .mul a b dest => { op := Config.opMul, a := a, b := b, d := dest }
  | .halt => { l with op := Config.opHalt }

/-- Cells written one after another from address `a` on. -/
def Memory.writeCells (m : Memory) (a : Nat) (vs : List Nat) : Memory :=
  match vs with
  | [] => m
  | v :: rest => Memory.writeCells (m.write a v) (a + 1) rest

/-- `s` with cells placed at the cursor, `LEN` reaching past them, a `RUN` in progress, the engine `RUNNING` and no
move of the host pending, so that the next step fetches them (log 11). -/
def placeAtCursor (s : State) (cells : List Nat) : State :=
  { s with
    mem := s.mem.writeCells s.pc cells
    len := max s.len (s.pc + cells.length)
    eng := .running
    status := Status.inProgress .run
    host := [] }

end Sys2Proof.Machine
end

