-- ==== Sys2Proof/Machine/Engine.lean ====
section
/-!
DEFINITION. Sys2Proof/Machine/Engine.lean: one engine step, `Step()` (spec 41_dispatch_halt_cursor.md R75).
-/
namespace Sys2Proof.Machine

/-- What follows a fetch: the instruction runs, or the fault is taken. -/
def runFetched (x : Access Instr) : Host.Outcome State Fault Refusal :=
  match x with
  | .ok i s => exec i s
  | .raised k s => .next (takeFault k s)
  | .unwritten => .fault .unwrittenCell

/-- `Step()` (41 R75), for an engine that is `RUNNING`. -/
def engineStep (s : State) : Host.Outcome State Fault Refusal := runFetched (fetch s)

end Sys2Proof.Machine
end

