-- ==== Sys2Proof/Machine/Sequencer.lean ====
section
/-!
DEFINITION. Sys2Proof/Machine/Sequencer.lean: the host commands and the search sequencer, one move at a time
(spec 42_run_exec_search.md), and the hardware reset (70 R129).
-/
namespace Sys2Proof.Machine

/-! ## The sequencer's primitives -/

/-- `Restore()` (42 R93): `MEM` becomes a copy of `SNAP` below `LEN`, the cursor goes to the entry point, the engine
runs. It touches nothing else (70 R132). -/
def restore (s : State) : State :=
  { s with mem := Memory.copyBelow s.snap s.mem s.len, pc := Config.entry, eng := .running }

/-- `Inject(n, v)` (42 R94): two checked writes, at addresses 1 and 2. -/
def inject (n v : Nat) (s : State) : Access Unit :=
  (memWrite Config.nounPos n s).andThen fun _ s1 => memWrite Config.verbPos v s1

/-- The state after a sequencer primitive: a `raise` in it ends the command (42 R95, 60 R117). The last arm is for
totality: the primitives only write, and a write never comes to `unwritten` (`inject_ne_unwritten`). -/
def settle (x : Access Unit) (s : State) : State :=
  match x with
  | .ok _ t => t
  | .raised k t => takeFault k t
  | .unwritten => s

/-- The beginning of `ExecOnce(n, v)`, up to the first engine step (42 R95). -/
def beginIteration (n v : Nat) (s : State) : State :=
  settle (inject n v (restore s)) (restore s)

/-- `NOUN <- n; VERB <- v` (42 R95; the loop counters of R96). -/
def setPair (n v : Nat) (s : State) : State := { s with noun := n, verb := v }

/-! ## The beginning of a command -/

/-- `LOAD` accepts an image that fits the memories and whose values fit a cell (42 R88). -/
def loadAccepted (p : Params) (image : List Nat) : Bool :=
  decide (image.length ≤ p.memCellsMax) && image.all p.fits

/-- An accepted `LOAD` (42 R88): the image goes to `SNAP`, `LEN` becomes its length, `MEM` is not written, and the
rest takes its reset value. -/
def load (image : List Nat) (s : State) : State :=
  { params := s.params
    snap   := Memory.ofCells 0 image ++ s.snap.beyond image.length
    mem    := s.mem
    len    := image.length
    pc     := Config.entry
    ir     := Latches.reset
    eng    := .stopped
    status := Status.reset
    target := 0
    noun   := 0
    verb   := 0
    result := SearchResult.reset
    out    := 0
    host   := s.host }

/-- The beginning of `RUN` (42 R89). -/
def beginRun (s : State) : State := restore (s.setStatus (Status.inProgress .run))

/-- The beginning of `EXEC(n, v)` (42 R95). -/
def beginExec (n v : Nat) (s : State) : State :=
  beginIteration n v (setPair n v (s.setStatus (Status.inProgress .exec)))

/-- What `SEARCH(t)` writes before its loop (42 R96). -/
def startSearch (t : Nat) (s : State) : State :=
  { s with status := Status.inProgress .search, target := t, result := SearchResult.reset }

/-- The beginning of `SEARCH(t)`, the first iteration's injection included (42 R96). -/
def beginSearch (t : Nat) (s : State) : State :=
  beginIteration 0 0 (setPair 0 0 (startSearch t s))

/-- A command is taken up (42 R87, R107). A `LOAD` that is not accepted changes nothing (42 R88). An `EXEC` argument
that is no cell value is refused (log 9); a `SEARCH` target that is none is simply never matched (95 V109, log 9). -/
def accept (c : Command) (s : State) : Host.Outcome State Fault Refusal :=
  match c with
  | .load image => if loadAccepted s.params image then .next (load image s) else .next s
  | .run => .next (beginRun s)
  | .exec n v =>
    if s.params.fits n && s.params.fits v then .next (beginExec n v s) else .refused .argumentTooWide
  | .search t => .next (beginSearch t s)

/-! ## The end of a run -/

/-- An iteration ended without a match (42 R96, R97): the next pair, verb inner and noun outer, or no pair is left
(42 R99). -/
def nextIteration (s : State) : State :=
  if s.verb + 1 < Config.searchBound then beginIteration s.noun (s.verb + 1) (setPair s.noun (s.verb + 1) s)
  else if s.noun + 1 < Config.searchBound then beginIteration (s.noun + 1) 0 (setPair (s.noun + 1) 0 s)
  else s.setStatus (Status.completed .search false)

/-- The end of a search at its first match (42 R96, R98). -/
def matched (s : State) : State :=
  { s with result := SearchResult.ofPair s.noun s.verb, status := Status.completed .search true }

/-- An iteration of a search ended `HALTED` with `OUT` written (42 R96, R98). -/
def judge (s : State) : State :=
  if s.out = s.target then matched s else nextIteration s

/-- `OUT <- MEM[0]`, the sequencer's own read after a `HALTED` end (42 R95, 10 R22). -/
def collectOut (s : State) (k : State → State) : Host.Outcome State Fault Refusal :=
  match s.mem.read Config.outPos with
  | some v => .next (k (s.setOut v))
  | none => .fault .unwrittenCell

/-- The sequencer's move after a run that ended `HALTED` (42 R89, R95, R96). -/
def endOfRun (s : State) : Host.Outcome State Fault Refusal :=
  match s.status.op with
  | .run => .next (s.setStatus (Status.completed .run false))
  | .exec => collectOut s fun t => t.setStatus (Status.completed .exec false)
  | .search => collectOut s judge
  | .none => .fault .noMove

/-! ## The block -/

/-- One move of the block by itself: an engine step, the sequencer's move after a HALT, or nothing when no command is
in progress (70 R130). A run that ended `FAULTED` is no longer `BUSY` (60 R117). -/
def advance (s : State) : Host.Outcome State Fault Refusal :=
  match s.status.state, s.eng with
  | .busy, .running => engineStep s
  | .busy, .halted => endOfRun s
  | .busy, .stopped => .fault .noMove
  | .busy, .faulted => .fault .noMove
  | .idle, _ => .next s
  | .done, _ => .next s
  | .error, _ => .next s

/-- The hardware reset (70 R129, R130): the reset state, whatever went before. The block's parameters and the moves
the host has yet to make are no state of the block. -/
def hardReset (s : State) : State := { State.reset with params := s.params, host := s.host }

/-- One step of the block and its host: `RESET` acts at once (70 R129); a command is taken up when the block is not
`BUSY` and waits until then (42 R107); otherwise the block moves by itself. -/
def blockStep (s : State) : Host.Outcome State Fault Refusal :=
  match s.host with
  | [] => advance s
  | .quiet :: rest => advance (s.setHost rest)
  | .reset :: rest => .next (hardReset (s.setHost rest))
  | .issue c :: rest => if s.status.state = .busy then advance s else accept c (s.setHost rest)

/-! ## What the host can read (10 R32, 42 R92): a refused read has no value, and no read changes the state -/

/-- `READ_STATUS`: always. -/
def readStatus (s : State) : Status := s.status

/-- `READ_LEN`: always. -/
def readLen (s : State) : Nat := s.len

/-- `READ_MEM(i)`: only after a `RUN` that ended `DONE`, and only below `LEN`. -/
def readMem (i : Nat) (s : State) : Option Nat :=
  if s.status.state = .done ∧ s.status.op = .run ∧ i < s.len then s.mem.read i else none

/-- `READ_OUT`: only after an `EXEC` or a `SEARCH` that ended `DONE`. -/
def readOut (s : State) : Option Nat :=
  if s.status.state = .done ∧ (s.status.op = .exec ∨ s.status.op = .search) then some s.out else none

/-- `READ_RESULT`: only after a `SEARCH` that ended `DONE`. -/
def readResult (s : State) : Option SearchResult :=
  if s.status.state = .done ∧ s.status.op = .search then some s.result else none

/-- `READ_ANSWER`: only after a `SEARCH` that ended `DONE`. -/
def readAnswer (s : State) : Option (BitVec 14) :=
  if s.status.state = .done ∧ s.status.op = .search then some s.result.answer else none

end Sys2Proof.Machine
end

