-- ==== Sys2Proof/Machine/Atomic.lean ====
section
/-!
DEFINITION. Sys2Proof/Machine/Atomic.lean: each host command as one function from the state before to the state after,
as 42 R87 allows, written from the spec's pseudocode (42 R89, R95, R96). `step` takes the same commands one move at a
time.
-/
namespace Sys2Proof.Machine

/-- Go on from a next state; a stop stays a stop. -/
def onNext (o : Host.Outcome State Fault Refusal) (k : State → Host.Outcome State Fault Refusal) :
    Host.Outcome State Fault Refusal :=
  match o with
  | .next s => k s
  | .fault r => .fault r
  | .refused r => .refused r

/-- `while ENG == RUNNING: Step()`, at most `n` times (42 R89). -/
def engineLoop (n : Nat) (s : State) : Host.Outcome State Fault Refusal :=
  match n with
  | 0 => .next s
  | k + 1 => if s.eng = .running then onNext (engineStep s) (engineLoop k) else .next s

/-- The steps a run makes at most: "exact fuel" (41 R84). -/
def runFuel (len : Nat) : Nat := len / Config.stride + 1

/-- The run of an image as it stands after `Restore()`, injected or not (41 R83). -/
def runToEnd (s : State) : Host.Outcome State Fault Refusal := engineLoop (runFuel s.len) s

/-- `ExecOnce(n, v)` (42 R95): the state it leaves is `HALTED` with `OUT` written, or `FAULTED`. -/
def execOnce (n v : Nat) (s : State) : Host.Outcome State Fault Refusal :=
  onNext (runToEnd (beginIteration n v s)) fun t =>
  if t.eng = .halted then collectOut t id else .next t

/-- `RUN` (42 R89). -/
def commandRun (s : State) : Host.Outcome State Fault Refusal :=
  onNext (runToEnd (beginRun s)) fun t =>
  if t.eng = .halted then .next (t.setStatus (Status.completed .run false)) else .next t

/-- `EXEC(n, v)` (42 R95). -/
def commandExec (n v : Nat) (s : State) : Host.Outcome State Fault Refusal :=
  onNext (execOnce n v (setPair n v (s.setStatus (Status.inProgress .exec)))) fun t =>
  if t.eng = .halted then .next (t.setStatus (Status.completed .exec false)) else .next t

/-- The pairs in the order they are tried: noun outer, verb inner, both ascending from 0 to 98 (42 R97). -/
def searchPairs : List (Nat × Nat) :=
  (List.range Config.searchBound).flatMap fun n => (List.range Config.searchBound).map fun v => (n, v)

/-- The loop of `SEARCH` over the pairs that are left (42 R96, R98 to R100). -/
def searchLoop (pairs : List (Nat × Nat)) (s : State) : Host.Outcome State Fault Refusal :=
  match pairs with
  | [] => .next (s.setStatus (Status.completed .search false))
  | (n, v) :: rest =>
    onNext (execOnce n v (setPair n v s)) fun t =>
    if t.eng = .halted then
      if t.out = t.target then .next (matched t) else searchLoop rest t
    else .next t

/-- `SEARCH(t)` (42 R96). -/
def commandSearch (t : Nat) (s : State) : Host.Outcome State Fault Refusal :=
  searchLoop searchPairs (startSearch t s)

/-- A host command as one atomic function (42 R87). -/
def command (c : Command) (s : State) : Host.Outcome State Fault Refusal :=
  match c with
  | .load image => if loadAccepted s.params image then .next (load image s) else .next s
  | .run => commandRun s
  | .exec n v => if s.params.fits n && s.params.fits v then commandExec n v s else .refused .argumentTooWide
  | .search t => commandSearch t s

end Sys2Proof.Machine
end

