-- ==== Sys2Proof/Machine/Step.lean ====
section
/-!
DEFINITION. Sys2Proof/Machine/Step.lean: one step of the machine, and an instruction placed where the next step fetches.
-/
namespace Sys2Proof.Machine

/-- One step: one engine step, one move of the sequencer, one move of the host, or nothing (log 6). -/
def step (s : State) : Host.Outcome State Fault Refusal := blockStep s

/-- `s` with an instruction, given in the opcode table's numbering, where `step` fetches its next one (log 11). -/
def State.withFetchWord (s : State) (nbits w : Nat) : State := placeAtCursor s (tableCells nbits w)

end Sys2Proof.Machine
end

