-- ==== Sys2Proof/Safety.lean ====
section
/-!
DEFINITION. Sys2Proof/Safety.lean: the terms in which claims are made: runs of several steps, the invariant of the
machine, the fault table of 60 R115, and what a command reports.
-/
namespace Sys2Proof.Machine

/-- `n` steps, stopping at the first stop. -/
def stepN (n : Nat) (s : State) : Host.Outcome State Fault Refusal :=
  match n with
  | 0 => .next s
  | k + 1 => onNext (step s) (stepN k)

/-- Every listed cell holds a cell value (20 R50). -/
abbrev Memory.holdsCells (p : Params) (m : Memory) : Prop := ∀ c ∈ m, p.fits c.2 = true

/-- No cell stands at `n` or beyond. -/
abbrev Memory.within (n : Nat) (m : Memory) : Prop := ∀ c ∈ m, c.1 < n

/-- Every cell below `n` has a value. -/
abbrev Memory.total (n : Nat) (m : Memory) : Prop := ∀ a, a < n → (Memory.read m a).isSome = true

/-- The engine states that go with a `STATUS.STATE` (10 R19, R23; 42 R89, R95, R96). -/
def engineAgrees (b : BlockState) (e : Engine) : Bool :=
  match b, e with
  | .idle, .stopped => true
  | .busy, .running => true
  | .busy, .halted => true
  | .done, .halted => true
  | .error, .faulted => true
  | _, _ => false

/-- A command a host can send: `EXEC` and `SEARCH` carry cell values (70 R134). -/
def Command.representable (p : Params) (c : Command) : Bool :=
  match c with
  | .load _ => true
  | .run => true
  | .exec n v => p.fits n && p.fits v
  | .search t => p.fits t

/-- A command that keeps the loaded image: any but `LOAD` (20 R49, 42 R103). -/
def Command.keepsImage (c : Command) : Bool :=
  match c with
  | .load _ => false
  | .run => true
  | .exec _ _ => true
  | .search _ => true

/-- A move a host can make. -/
def HostMove.representable (p : Params) (m : HostMove) : Bool :=
  match m with
  | .quiet => true
  | .reset => true
  | .issue c => c.representable p

/-- The invariant of the machine: it holds at reset and every step keeps it. -/
structure Inv (s : State) : Prop where
  /-- `W >= 14` and `MEM_CELLS_MAX <= 2^W - 4` (00 R5, R6). -/
  params : s.params.admissible = true
  /-- Memories are in canonical form. -/
  snapForm : s.snap.wf = true
  memForm : s.mem.wf = true
  /-- Every cell holds a cell value (20 R50). -/
  snapCells : Memory.holdsCells s.params s.snap
  memCells : Memory.holdsCells s.params s.mem
  /-- Each memory has `MEM_CELLS_MAX` cells (10 R13, R14). -/
  snapSize : Memory.within s.params.memCellsMax s.snap
  memSize : Memory.within s.params.memCellsMax s.mem
  /-- `LEN` is at most `MEM_CELLS_MAX` (10 R15). -/
  lenBound : s.len ≤ s.params.memCellsMax
  /-- Cells `0` to `LEN - 1` of `SNAP` are defined (10 R13). -/
  snapTotal : Memory.total s.len s.snap
  /-- Once a run has started, so are those of `MEM` (42 R93). -/
  memTotal : s.eng ≠ .stopped → Memory.total s.len s.mem
  /-- The cursor is a multiple of 4 and at most `LEN` (41 R81). -/
  pcAligned : s.pc % 4 = 0
  pcBound : s.pc ≤ s.len
  /-- Only the 17 combinations of `STATUS` occur (10 R25). -/
  statusLegal : s.status.legal = true
  /-- `ENG` and `STATUS.STATE` go together. -/
  engine : engineAgrees s.status.state s.eng = true
  /-- A run that halted fetched a 99, so address 0 exists (42 R95). -/
  haltedNonempty : s.eng = .halted → 0 < s.len
  /-- The registers hold cell values. -/
  targetCell : s.params.fits s.target = true
  nounCell : s.params.fits s.noun = true
  verbCell : s.params.fits s.verb = true
  outCell : s.params.fits s.out = true
  latchCells : s.params.fits s.ir.op = true ∧ s.params.fits s.ir.a = true ∧ s.params.fits s.ir.b = true ∧
    s.params.fits s.ir.d = true
  /-- The loop counters of a search are 0 to 98 (10 R26). -/
  counters : s.status.op = .search → s.noun < 99 ∧ s.verb < 99
  /-- The fields of `RESULT` are 0 to 98 (10 R28). -/
  resultBound : s.result.resNoun.toNat < 99 ∧ s.result.resVerb.toNat < 99
  /-- `RESULT` is assigned only on a match (42 R101). -/
  resultUnassigned : s.status.op = .search → s.status.found = false → s.result = SearchResult.reset
  /-- `FOUND` says that the pair in `RESULT` gave `OUT`, which equals `TARGET` (10 R22, 42 R98). -/
  foundMeans : s.status.found = true → s.out = s.target ∧ s.result = SearchResult.ofPair s.noun s.verb
  /-- The host sends cell values only (70 R134). -/
  hostMoves : ∀ m ∈ s.host, m.representable s.params = true

/-- `s` after its host lets one step pass, if that is the host's next move. -/
def State.afterQuiet (s : State) : State :=
  match s.host with
  | .quiet :: rest => s.setHost rest
  | _ => s

/-- `t` is `s` with a fault of kind `k` entered (60 R117): only `ENG`, `STATUS` and the latches of the decoder differ. -/
def FaultedBy (k : FaultKind) (s t : State) : Prop :=
  t = { s with
    ir := t.ir
    eng := .faulted
    status := { state := .error, cause := k.cause, op := s.status.op, found := false } }

/-- `t` is `s` with the cell at `d` set to `r`, and every other cell as before. -/
def OneCellWritten (d r : Nat) (s t : State) : Prop :=
  t.mem.read d = some r ∧ ∀ z, z ≠ d → t.mem.read z = s.mem.read z

/-- The value of a cell that is read below `LEN` (for a memory that is total there). -/
def State.cell (s : State) (a : Nat) : Nat := (s.mem.read a).getD 0

/-- The exact result of an ADD or MUL at the cursor. -/
def State.exactResult (s : State) : Nat :=
  let x := s.cell (s.cell (s.pc + 1))
  let y := s.cell (s.cell (s.pc + 2))
  if s.cell s.pc = Config.opAdd then x + y else x * y

/-- The fault that the step at the cursor reports: the table of 60 R115, first condition that holds. -/
def faultTable (s : State) : Option FaultKind :=
  if s.pc ≥ s.len then some .boundary
  else if s.cell s.pc ≠ 1 ∧ s.cell s.pc ≠ 2 ∧ s.cell s.pc ≠ 99 then some .processing
  else if s.cell s.pc = 99 then none
  else if s.pc + 1 ≥ s.len then some .boundary
  else if s.pc + 2 ≥ s.len then some .boundary
  else if s.pc + 3 ≥ s.len then some .boundary
  else if s.cell (s.pc + 1) ≥ s.len then some .boundary
  else if s.cell (s.pc + 2) ≥ s.len then some .boundary
  else if s.params.fits s.exactResult = false then some .overflow
  else if s.cell (s.pc + 3) ≥ s.len then some .boundary
  else none

/-- What `EXEC(n, v)` reports: `OUT` if it ended `DONE`, and `STATUS.CAUSE` (42 R95). -/
def execReport (n v : Nat) (s : State) : Option (Option Nat × Cause) :=
  match commandExec n v s with
  | .next t => some (readOut t, t.status.cause)
  | .fault _ => none
  | .refused _ => none

/-- Commands carried out one after another, each as one atomic function (42 R87). -/
def commandSeq (cs : List Command) (s : State) : Host.Outcome State Fault Refusal :=
  match cs with
  | [] => .next s
  | c :: rest => onNext (command c s) (commandSeq rest)

/-- The host cannot tell `s` and `t` apart: each of its six reads gives the same in both (10 R32, 42 R92). -/
def SameReads (s t : State) : Prop :=
  readStatus s = readStatus t ∧ readLen s = readLen t ∧ (∀ i, readMem i s = readMem i t) ∧ readOut s = readOut t ∧
  readResult s = readResult t ∧ readAnswer s = readAnswer t

/-- Pair number `k`, counted from 0: `(k div 99, k mod 99)` (42 R97). -/
def pairAt (k : Nat) : Nat × Nat := (k / 99, k % 99)

end Sys2Proof.Machine
end

