-- ==== Sys2Proof/Certificates/Slice0/Obligations.lean ====
section
/-!
DEFINITION. Sys2Proof/Certificates/Slice0/Obligations.lean: the statements for the provers. Frames are written as
`t = { s with … }`: the named fields are the only ones that may differ.
-/

open Sys2Proof Sys2Proof.Machine

/-! ## Encoding and decoding -/

/-- 41 R75 to R77, 40 R65: while a run is in progress and the host does not assert RESET, the step runs exactly the
instruction that the cells at the cursor decode to, with its cells in the latches. -/
def Obligations.StepRunsDecodedInstruction : Prop :=
  ∀ (s : State) (i : Instr) (rest : List Nat),
    s.status.state = .busy → s.eng = .running → s.host.head? ≠ some .reset →
    decode s.window = .instr i rest →
    step s = exec i (s.afterQuiet.setIr (s.ir.load i))

/-- 30 R51 to R57: the decoder reads `i` from exactly those cells that begin with the encoding of `i`, and leaves the
cells after it. -/
def Obligations.DecodesExactlyTheEncodings : Prop :=
  ∀ (cells : List Nat) (i : Instr) (rest : List Nat),
    decode cells = .instr i rest ↔ cells = encode i ++ rest

/-- 30 R54, R57: the whole cell is compared; every opcode value but 1, 2 and 99 is unrecognized, whatever follows. -/
def Obligations.UnrecognizedExactlyOtherOpcodes : Prop :=
  ∀ (op : Nat) (rest : List Nat),
    decode (op :: rest) = .error .unrecognized ↔ (op ≠ 1 ∧ op ≠ 2 ∧ op ≠ 99)

/-- 30 R52 to R55 and the opcode table: with cells of 64 bits, every well-formed instruction is read back from its bits in
the table's numbering; no bit of a field is dropped. -/
def Obligations.TableWordRoundTrip : Prop :=
  ∀ i : Instr, i.wellFormed Params.standard = true → decodeTableWord 256 (tableWord i) = some i

/-- An instruction placed at the cursor (log 11) is the one the very next step runs. -/
def Obligations.PlacedInstructionRunsNext : Prop :=
  ∀ (s : State) (i : Instr), i.wellFormed Params.standard = true →
    step (s.withFetchWord 256 (tableWord i)) =
      exec i ((s.withFetchWord 256 (tableWord i)).setIr (s.ir.load i))

/-- 95 V10 to V17: sample words. That cell `k` stands in bits `64k + 63` to `64k` of a word is the model's reading of the
opcode table (log 11, DEDUCED): the spec's rules give cells. -/
def Obligations.SampleWordsDecode : Prop :=
  decodeTableWord 256 (1 + 9 * 2 ^ 64 + 10 * 2 ^ 128 + 3 * 2 ^ 192) = some (.add 9 10 3) ∧
  decodeTableWord 256 (2 + 3 * 2 ^ 64 + 11 * 2 ^ 128) = some (.mul 3 11 0) ∧
  decodeTableWord 64 99 = some .halt ∧
  decode [99, 1, 2, 3] = .instr .halt [1, 2, 3] ∧
  decodeTableWord 64 0 = none ∧ decodeTableWord 64 3 = none ∧ decodeTableWord 64 98 = none ∧
  decodeTableWord 64 100 = none ∧ decodeTableWord 64 1001 = none ∧ decodeTableWord 64 (2 ^ 64 - 1) = none

/-- 30 R62: the cells of each kind of line, consecutive in the order written; so a listing that begins with an
instruction decodes to it and leaves the cells of the other lines. -/
def Obligations.AssembledLinesAreConsecutive : Prop :=
  (∀ a b d : Nat, assemble [.instr (.add a b d)] = [1, a, b, d] ∧ assemble [.instr (.mul a b d)] = [2, a, b, d]) ∧
  assemble [.instr .halt] = [99] ∧ (∀ v : Nat, assemble [.cell v] = [v]) ∧
  (∀ ls ms : List AsmLine, assemble (ls ++ ms) = assemble ls ++ assemble ms) ∧
  (∀ (i : Instr) (ls : List AsmLine), decode (assemble (.instr i :: ls)) = .instr i (assemble ls))

/-! ## Memory -/

/-- 20 R34, R40. A cell below `LEN` that has no value, whose read R31 calls impossible, stops the model (log 3, the
model's choice). -/
def Obligations.MemReadIsChecked : Prop :=
  ∀ (a : Nat) (s : State),
    (s.len ≤ a → memRead a s = .raised .boundary s) ∧
    (∀ v, a < s.len → s.mem.read a = some v → memRead a s = .ok v s) ∧
    (a < s.len → s.mem.read a = none → memRead a s = .unwritten)

/-- 20 R35, R38: a write changes the addressed cell and nothing else; at `LEN` or beyond nothing is written. -/
def Obligations.MemWriteIsChecked : Prop :=
  ∀ (a v : Nat) (s : State),
    (s.len ≤ a → memWrite a v s = .raised .boundary s) ∧
    (a < s.len → ∃ t, memWrite a v s = .ok () t ∧ OneCellWritten a v s t ∧ t = { s with mem := t.mem })

/-- 42 R93, 70 R132: after `Restore()` every cell below `LEN` is `SNAP`'s, the cursor is at the entry point, the engine
runs, and nothing else is touched. -/
def Obligations.RestoreCopiesSnapshot : Prop :=
  ∀ s : State,
    (∀ a, a < s.len → (restore s).mem.read a = s.snap.read a) ∧
    (∀ a, s.len ≤ a → (restore s).mem.read a = s.mem.read a) ∧
    restore s = { s with mem := (restore s).mem, pc := 0, eng := .running }

/-- 42 R94: the injection writes noun at address 1 and verb at address 2, each checked against `LEN`; position 0 and
every other cell stay. -/
def Obligations.InjectWritesNounAndVerb : Prop :=
  ∀ (n v : Nat) (s : State),
    (s.len < 2 → inject n v s = .raised .boundary s) ∧
    (s.len = 2 → ∃ t, inject n v s = .raised .boundary t ∧ OneCellWritten 1 n s t ∧ t = { s with mem := t.mem }) ∧
    (2 < s.len → ∃ t, inject n v s = .ok () t ∧ t.mem.read 1 = some n ∧ t.mem.read 2 = some v ∧
      (∀ z, z ≠ 1 → z ≠ 2 → t.mem.read z = s.mem.read z) ∧ t = { s with mem := t.mem })

/-! ## ADD, MUL, HALT -/

/-- 40 R66: ADD completes when its sources and destination are below `LEN` and the sum fits a cell: it stores the sum at
`dest`, advances the cursor by 4, and changes nothing else. -/
def Obligations.AddStoresSum : Prop :=
  ∀ (s : State) (a b d x y : Nat),
    a < s.len → b < s.len → d < s.len → s.mem.read a = some x → s.mem.read b = some y →
    s.params.fits (x + y) = true →
    ∃ t, exec (.add a b d) s = .next t ∧ OneCellWritten d (x + y) s t ∧
      t = { s with mem := t.mem, pc := s.pc + 4 }

/-- 40 R67: as ADD, with the product. -/
def Obligations.MulStoresProduct : Prop :=
  ∀ (s : State) (a b d x y : Nat),
    a < s.len → b < s.len → d < s.len → s.mem.read a = some x → s.mem.read b = some y →
    s.params.fits (x * y) = true →
    ∃ t, exec (.mul a b d) s = .next t ∧ OneCellWritten d (x * y) s t ∧
      t = { s with mem := t.mem, pc := s.pc + 4 }

/-- 40 R65, R66: the whole of ADD from the fetch on, its faults in the order they are tested. -/
def Obligations.AddWholeRule : Prop :=
  ∀ s : State, Memory.total s.len s.mem → s.pc < s.len → s.cell s.pc = 1 →
    ∃ t, engineStep s = .next t ∧
      (if s.len ≤ s.pc + 3 ∨ s.len ≤ s.cell (s.pc + 1) ∨ s.len ≤ s.cell (s.pc + 2) then FaultedBy .boundary s t
       else if s.params.fits (s.cell (s.cell (s.pc + 1)) + s.cell (s.cell (s.pc + 2))) = false then
         FaultedBy .overflow s t
       else if s.len ≤ s.cell (s.pc + 3) then FaultedBy .boundary s t
       else
         OneCellWritten (s.cell (s.pc + 3)) (s.cell (s.cell (s.pc + 1)) + s.cell (s.cell (s.pc + 2))) s t ∧
         t = { s with mem := t.mem, pc := s.pc + 4, ir := t.ir })

/-- 40 R65, R67: the whole of MUL from the fetch on, its faults in the order they are tested. -/
def Obligations.MulWholeRule : Prop :=
  ∀ s : State, Memory.total s.len s.mem → s.pc < s.len → s.cell s.pc = 2 →
    ∃ t, engineStep s = .next t ∧
      (if s.len ≤ s.pc + 3 ∨ s.len ≤ s.cell (s.pc + 1) ∨ s.len ≤ s.cell (s.pc + 2) then FaultedBy .boundary s t
       else if s.params.fits (s.cell (s.cell (s.pc + 1)) * s.cell (s.cell (s.pc + 2))) = false then
         FaultedBy .overflow s t
       else if s.len ≤ s.cell (s.pc + 3) then FaultedBy .boundary s t
       else
         OneCellWritten (s.cell (s.pc + 3)) (s.cell (s.cell (s.pc + 1)) * s.cell (s.cell (s.pc + 2))) s t ∧
         t = { s with mem := t.mem, pc := s.pc + 4, ir := t.ir })

/-- 41 R78: HALT completes in every state: `ENG <- HALTED`, and memory, cursor and everything else stay. -/
def Obligations.HaltStopsTheEngine : Prop :=
  ∀ s : State, exec .halt s = .next { s with eng := .halted }

/-- 41 R78, 90 C1: a 99 at the cursor halts whatever follows it, in the last cell of the image too; only the opcode
latch and `ENG` change. -/
def Obligations.HaltReadsOneCell : Prop :=
  ∀ s : State, s.pc < s.len → s.mem.read s.pc = some 99 →
    ∃ t, engineStep s = .next t ∧ t = { s with eng := .halted, ir := t.ir } ∧ t.ir.op = 99

/-- 40 R70: the exact results and the faulting pairs, for operands below 2^W: ADD faults exactly when
`y > 2^W - 1 - x`; MUL gives 0 if an operand is 0, else faults exactly when `y > floor((2^W - 1) / x)`. -/
def Obligations.AluGivesExactResultOrOverflows : Prop :=
  ∀ (s : State) (w x y : Nat), s.params.width = .bits w → x < 2 ^ w → y < 2 ^ w →
    checkResult (aluAdd x y) s = (if y > 2 ^ w - 1 - x then .raised .overflow s else .ok (x + y) s) ∧
    checkResult (aluMul x y) s =
      (if x = 0 ∨ y = 0 then .ok 0 s
       else if y > (2 ^ w - 1) / x then .raised .overflow s
       else .ok (x * y) s)

/-- 40 R68: both ALU functions are commutative, so swapping the source fields changes neither what is stored nor which
fault is raised, when both sources are readable. -/
def Obligations.SwappedSourcesAgree : Prop :=
  ∀ (s : State) (a b d x y : Nat), a < s.len → b < s.len → s.mem.read a = some x → s.mem.read b = some y →
    exec (.add a b d) s = exec (.add b a d) s ∧ exec (.mul a b d) s = exec (.mul b a d) s

/-- 20 R45, 70 R136: a completed ADD or MUL whose destination is the next opcode cell: the next fetch sees the result. -/
def Obligations.StoreIsSeenByNextFetch : Prop :=
  ∀ (s : State) (a b x y : Nat),
    a < s.len → b < s.len → s.pc + 4 < s.len → s.mem.read a = some x → s.mem.read b = some y →
    (s.params.fits (x + y) = true →
      ∃ t, exec (.add a b (s.pc + 4)) s = .next t ∧ t.window.head? = some (x + y)) ∧
    (s.params.fits (x * y) = true →
      ∃ t, exec (.mul a b (s.pc + 4)) s = .next t ∧ t.window.head? = some (x * y))

/-! ## Faults -/

/-- 60 R117, R109: taking a fault: `ENG <- FAULTED` and `STATUS <- (ERROR, cause, op, 0)`; no other state changes. The
`raise` and the end of the command are one step (log 5). -/
def Obligations.FaultEntryWritesEngineAndStatus : Prop :=
  ∀ (k : FaultKind) (s : State), takeFault k s = { s with
    eng := .faulted
    status := { state := .error, cause := k.cause, op := s.status.op, found := false } }

/-- 41 R79, 30 R57: an opcode other than 1, 2 and 99 raises ProcessingError, whatever cells follow it; nothing is
written and the cursor stays. -/
def Obligations.UnrecognizedRaisesProcessingError : Prop :=
  ∀ (s : State) (op : Nat), s.pc < s.len → s.mem.read s.pc = some op → op ≠ 1 → op ≠ 2 → op ≠ 99 →
    ∃ t, engineStep s = .next t ∧ FaultedBy .processing s t

/-- 41 R76: an opcode fetch at `LEN` or beyond raises BoundaryFault. -/
def Obligations.FetchPastTheEndFaults : Prop :=
  ∀ s : State, s.len ≤ s.pc → ∃ t, engineStep s = .next t ∧ FaultedBy .boundary s t

/-- 60 R115: an engine step reports the first condition of the fault table that holds, and none if none holds. -/
def Obligations.FaultPriorityTable : Prop :=
  ∀ s : State, Memory.total s.len s.mem → s.eng = .running →
    ∃ t, engineStep s = .next t ∧
      (match faultTable s with
        | some k => FaultedBy k s t
        | none => t.eng = (if s.cell s.pc = 99 then .halted else .running) ∧ t.status = s.status)

/-- 40 R69, 60 R112: with `W` unbounded there is no OverflowFault. -/
def Obligations.NoOverflowWhenUnbounded : Prop :=
  ∀ s t : State, s.params.width = .unbounded → s.status.cause ≠ .overflow → step s = .next t →
    t.status.cause ≠ .overflow

/-- 60 R119, 70 R130: with no command in progress the block does nothing until the host acts; after a fault in
particular no run is resumed. -/
def Obligations.BlockWaitsForTheHost : Prop :=
  ∀ (n : Nat) (s : State), s.status.state ≠ .busy → s.host = [] → stepN n s = .next s

/-! ## Registers and reads -/

/-- 10 R24: the layout of the `STATUS` byte, with the field codes of R23, and the examples given. -/
def Obligations.StatusByteLayout : Prop :=
  (BlockState.idle.code = 0 ∧ BlockState.busy.code = 1 ∧ BlockState.done.code = 2 ∧ BlockState.error.code = 3) ∧
  (Cause.none.code = 0 ∧ Cause.processing.code = 1 ∧ Cause.boundary.code = 2 ∧ Cause.overflow.code = 3) ∧
  (Op.none.code = 0 ∧ Op.run.code = 1 ∧ Op.exec.code = 2 ∧ Op.search.code = 3) ∧
  (∀ x : Status, x.byte.extractLsb' 0 2 = x.state.code ∧ x.byte.extractLsb' 2 2 = x.cause.code ∧
    x.byte.extractLsb' 4 2 = x.op.code ∧ x.byte.getLsbD 6 = x.found ∧ x.byte.getLsbD 7 = false) ∧
  Status.reset.byte = 0x00 ∧ (Status.completed .run false).byte = 0x12 ∧
  (Status.mk .error .processing .run false).byte = 0x17 ∧ (Status.completed .search true).byte = 0x72 ∧
  (Status.completed .search false).byte = 0x32 ∧ (Status.mk .error .boundary .search false).byte = 0x3B ∧
  (Status.mk .error .overflow .exec false).byte = 0x2F

/-- 10 R25: the 17 legal combinations of `STATE`, `CAUSE`, `OP` and `FOUND`, named. -/
def Obligations.SeventeenLegalStatuses : Prop :=
  ∀ (x : BlockState) (c : Cause) (o : Op) (f : Bool),
    Status.legal { state := x, cause := c, op := o, found := f } = true ↔
    (x, c, o, f) ∈
      [(.idle, .none, .none, false),
       (.busy, .none, .run, false), (.busy, .none, .exec, false), (.busy, .none, .search, false),
       (.done, .none, .run, false), (.done, .none, .exec, false), (.done, .none, .search, false),
       (.done, .none, .search, true),
       (.error, .processing, .run, false), (.error, .processing, .exec, false), (.error, .processing, .search, false),
       (.error, .boundary, .run, false), (.error, .boundary, .exec, false), (.error, .boundary, .search, false),
       (.error, .overflow, .run, false), (.error, .overflow, .exec, false), (.error, .overflow, .search, false)]

/-- 10 R28, R29: the 14 bits of `RESULT`, and the pair recovered from `ANSWER`. -/
def Obligations.AnswerRecoversThePair : Prop :=
  ∀ r : SearchResult,
    r.bits.extractLsb' 7 7 = r.resNoun ∧ r.bits.extractLsb' 0 7 = r.resVerb ∧
    r.answer.toNat = 100 * r.resNoun.toNat + r.resVerb.toNat ∧
    (r.resVerb.toNat < 100 →
      r.resNoun.toNat = r.answer.toNat / 100 ∧ r.resVerb.toNat = r.answer.toNat % 100)

/-- 10 R32, 42 R92: what the host can read, and when. -/
def Obligations.HostReadsFollowVisibility : Prop :=
  ∀ (s : State) (i v : Nat) (r : SearchResult) (w : BitVec 14),
    readStatus s = s.status ∧ readLen s = s.len ∧
    (readMem i s = some v ↔
      s.status.state = .done ∧ s.status.op = .run ∧ i < s.len ∧ s.mem.read i = some v) ∧
    (readOut s = some v ↔
      s.status.state = .done ∧ (s.status.op = .exec ∨ s.status.op = .search) ∧ s.out = v) ∧
    (readResult s = some r ↔ s.status.state = .done ∧ s.status.op = .search ∧ s.result = r) ∧
    (readAnswer s = some w ↔ s.status.state = .done ∧ s.status.op = .search ∧ s.result.answer = w)

/-! ## Reset and host commands -/

/-- 10 R31, 70 R130: the values the spec gives for reset. -/
def Obligations.ResetStateValues : Prop :=
  State.reset.len = 0 ∧ State.reset.pc = 0 ∧ State.reset.eng = .stopped ∧
  State.reset.status = { state := .idle, cause := .none, op := .none, found := false } ∧
  State.reset.target = 0 ∧ State.reset.noun = 0 ∧ State.reset.verb = 0 ∧ State.reset.out = 0 ∧
  State.reset.result = { resNoun := 0, resVerb := 0 } ∧ State.reset.result.answer = 0

/-- 70 R129, R130: RESET takes the reset state from any state, a command in progress included. The parameters stay
(log 2), and so do the host's further moves (log 7). -/
def Obligations.ResetActsInAnyState : Prop :=
  ∀ (s : State) (rest : List HostMove), s.host = .reset :: rest →
    ∃ t, step s = .next t ∧ t.len = 0 ∧ t.pc = 0 ∧ t.eng = .stopped ∧ t.status = Status.reset ∧
      t.target = 0 ∧ t.noun = 0 ∧ t.verb = 0 ∧ t.result = SearchResult.reset ∧ t.out = 0 ∧
      t.params = s.params ∧ t.host = rest

/-- 42 R107: a command is taken up whenever the block is not `BUSY`, after an `ERROR` too; while the block is `BUSY` it is
not taken up, and the block moves as if the host were quiet. -/
def Obligations.CommandsWaitForNotBusy : Prop :=
  ∀ (s : State) (c : Command) (rest : List HostMove), s.host = .issue c :: rest →
    (s.status.state ≠ .busy → step s = accept c (s.setHost rest)) ∧
    (s.status.state = .busy → step s = advance s)

/-- 42 R88: an accepted LOAD: the image in `SNAP`, its length in `LEN`, `MEM` not written, and every other register at its
reset value. (The latches, which R31 leaves unspecified, are not mentioned.) -/
def Obligations.LoadWritesSnapshotAndLength : Prop :=
  ∀ (s : State) (image : List Nat) (rest : List HostMove),
    s.status.state ≠ .busy → s.host = .issue (.load image) :: rest →
    image.length ≤ s.params.memCellsMax → (∀ v ∈ image, s.params.fits v = true) →
    ∃ t, step s = .next t ∧ (∀ i, i < image.length → t.snap.read i = image[i]?) ∧
      (∀ i, image.length ≤ i → t.snap.read i = s.snap.read i) ∧
      t = { State.reset with
        params := s.params, snap := t.snap, mem := s.mem, len := image.length, ir := t.ir, host := rest }

/-- 42 R88: a LOAD of an image with too many cells or a value too wide is refused, and no state changes. -/
def Obligations.RefusedLoadChangesNothing : Prop :=
  ∀ (s : State) (image : List Nat) (rest : List HostMove),
    s.status.state ≠ .busy → s.host = .issue (.load image) :: rest →
    (s.params.memCellsMax < image.length ∨ ∃ v ∈ image, s.params.fits v = false) →
    step s = .next { s with host := rest }

/-- 42 R89, R93: a RUN begins with the status of a command in progress, a restored memory and the cursor at 0; `SNAP`,
`LEN` and the other registers stay. -/
def Obligations.RunBeginsWithRestore : Prop :=
  ∀ (s : State) (rest : List HostMove), s.status.state ≠ .busy → s.host = .issue .run :: rest →
    ∃ t, step s = .next t ∧ (∀ a, a < s.len → t.mem.read a = s.snap.read a) ∧
      t = { s with
        mem := t.mem, pc := 0, eng := .running, host := rest
        status := { state := .busy, cause := .none, op := .run, found := false } }

/-- 42 R95, R94, R90: an EXEC begins with its arguments in `NOUN` and `VERB`, a restored memory and the two values
injected; an image of fewer than 3 cells ends it there with a BoundaryFault (entered in the same step, log 5). -/
def Obligations.ExecBeginsWithInjection : Prop :=
  ∀ (s : State) (n v : Nat) (rest : List HostMove),
    s.status.state ≠ .busy → s.host = .issue (.exec n v) :: rest →
    s.params.fits n = true → s.params.fits v = true →
    ∃ t, step s = .next t ∧
      t = { s with
        noun := n, verb := v, mem := t.mem, pc := 0, eng := t.eng, status := t.status, host := rest } ∧
      (s.len < 3 → t.eng = .faulted ∧
        t.status = { state := .error, cause := .boundary, op := .exec, found := false }) ∧
      (3 ≤ s.len → t.eng = .running ∧
        t.status = { state := .busy, cause := .none, op := .exec, found := false } ∧
        t.mem.read 1 = some n ∧ t.mem.read 2 = some v ∧
        ∀ a, a < s.len → a ≠ 1 → a ≠ 2 → t.mem.read a = s.snap.read a)

/-- 70 R134, log 9, the model's choice: an EXEC with an argument that is no cell value, which no host can send, is
refused by name. -/
def Obligations.UnrepresentableExecIsRefused : Prop :=
  ∀ (s : State) (n v : Nat) (rest : List HostMove),
    s.status.state ≠ .busy → s.host = .issue (.exec n v) :: rest →
    (s.params.fits n = false ∨ s.params.fits v = false) → step s = .refused .argumentTooWide

/-- 42 R96, R94: a SEARCH begins with the target in `TARGET`, `RESULT` cleared, and the iteration of the pair (0, 0); an
image of fewer than 3 cells ends it there with a BoundaryFault (entered in the same step, log 5). The target is any
number: R91 and R27 give it values below 2^W, and that a wider one runs too is the model's choice (log 9, DEDUCED from
95 V109). -/
def Obligations.SearchBeginsAtFirstPair : Prop :=
  ∀ (s : State) (g : Nat) (rest : List HostMove),
    s.status.state ≠ .busy → s.host = .issue (.search g) :: rest →
    ∃ t, step s = .next t ∧
      t = { s with
        target := g, result := { resNoun := 0, resVerb := 0 }, noun := 0, verb := 0, mem := t.mem, pc := 0
        eng := t.eng, status := t.status, host := rest } ∧
      (s.len < 3 → t.eng = .faulted ∧
        t.status = { state := .error, cause := .boundary, op := .search, found := false }) ∧
      (3 ≤ s.len → t.eng = .running ∧
        t.status = { state := .busy, cause := .none, op := .search, found := false } ∧
        t.mem.read 1 = some 0 ∧ t.mem.read 2 = some 0 ∧
        ∀ a, a < s.len → a ≠ 1 → a ≠ 2 → t.mem.read a = s.snap.read a)

/-- 42 R89, R95, 10 R22: what the sequencer does after a HALT of a RUN and of an EXEC; `OUT` is written by the EXEC
only, and nothing but `OUT` and `STATUS` changes. -/
def Obligations.HaltedRunAndExecComplete : Prop :=
  ∀ s : State, s.status.state = .busy → s.eng = .halted → s.host = [] →
    (s.status.op = .run →
      step s = .next { s with status := { state := .done, cause := .none, op := .run, found := false } }) ∧
    (∀ v, s.status.op = .exec → s.mem.read 0 = some v →
      step s = .next { s with
        out := v, status := { state := .done, cause := .none, op := .exec, found := false } })

/-- 42 R96 to R101: what the sequencer does after a HALT of a search iteration: a match ends the search with `FOUND` and
the pair in `RESULT`; else the next pair in row-major order begins on a restored memory with the pair injected; after
pair (98, 98) the search ends without `FOUND`; that `NOUN` and `VERB` then stay at 98 and 98 is the model's reading (log 8,
DEDUCED). -/
def Obligations.SearchJudgesEachIteration : Prop :=
  ∀ (s : State) (v : Nat), s.status.state = .busy → s.eng = .halted → s.host = [] → s.status.op = .search →
    s.mem.read 0 = some v → s.noun < 99 → s.verb < 99 → 2 < s.len →
    (v = s.target →
      step s = .next { s with
        out := v, result := SearchResult.ofPair s.noun s.verb
        status := { state := .done, cause := .none, op := .search, found := true } }) ∧
    (v ≠ s.target → s.noun = 98 ∧ s.verb = 98 →
      step s = .next { s with
        out := v, status := { state := .done, cause := .none, op := .search, found := false } }) ∧
    (v ≠ s.target → ¬(s.noun = 98 ∧ s.verb = 98) →
      ∃ t, step s = .next t ∧
        (t.noun, t.verb) = pairAt (99 * s.noun + s.verb + 1) ∧
        t.mem.read 1 = some t.noun ∧ t.mem.read 2 = some t.verb ∧
        (∀ a, a < s.len → a ≠ 1 → a ≠ 2 → t.mem.read a = s.snap.read a) ∧
        t = { s with out := v, noun := t.noun, verb := t.verb, mem := t.mem, pc := 0, eng := .running })

/-- 42 R97: the pairs are tried in row-major order: 9801 of them, pair number `k`, counted from 0, being
`(k div 99, k mod 99)`. -/
def Obligations.PairsAreRowMajor : Prop :=
  searchPairs.length = 9801 ∧ ∀ k, k < 9801 → searchPairs[k]? = some (pairAt k)

/-! ## Rules about the whole machine -/

/-- 41 R80, R81: an engine step either completes an ADD or MUL and advances the cursor by 4, or ends the run and leaves
the cursor. -/
def Obligations.CursorAdvancesOrRunEnds : Prop :=
  ∀ s t : State, s.status.state = .busy → s.eng = .running → s.host.head? ≠ some .reset → step s = .next t →
    (t.eng = .running ∧ t.pc = s.pc + 4) ∨ (t.eng ≠ .running ∧ t.pc = s.pc)

/-- 20 R49, 10 R13, R15: `SNAP` and `LEN` are written by LOAD and RESET only. -/
def Obligations.OnlyLoadWritesSnapshot : Prop :=
  ∀ s t : State, step s = .next t →
    (t.snap = s.snap ∧ t.len = s.len) ∨
    (∃ rest, s.host = .reset :: rest) ∨
    (s.status.state ≠ .busy ∧ ∃ image rest, s.host = .issue (.load image) :: rest)

/-- 42 R101: a step changes `RESULT` only to clear it or, at a match, to the pair in progress. -/
def Obligations.ResultAssignedOnlyOnMatch : Prop :=
  ∀ s t : State, step s = .next t →
    t.result = s.result ∨ t.result = SearchResult.reset ∨
    (t.status = { state := .done, cause := .none, op := .search, found := true } ∧
      t.out = s.target ∧ t.result = SearchResult.ofPair s.noun s.verb)

/-- Log 2: no step writes the implementation parameters. The model's own field; no rule of the spec's. -/
def Obligations.ParametersNeverChange : Prop :=
  ∀ s t : State, step s = .next t → t.params = s.params

/-- The invariant holds at reset. -/
def Obligations.ResetMeetsInvariant : Prop := Inv State.reset

/-- Every step keeps the invariant: canonical memories, cell values below 2^W (20 R50), the cursor a multiple of 4 and at
most `LEN` (41 R81), the 17 legal statuses (10 R25), `RESULT` within range and assigned only on a match (10 R28, 42 R101). -/
def Obligations.EveryStepKeepsInvariant : Prop :=
  ∀ s t : State, Inv s → step s = .next t → Inv t

/-- 00 R11, 10 R31: from a state that meets the invariant every step answers a next state: no cell without a value is ever
read, and the sequencer always has its move. -/
def Obligations.InvariantStatesAlwaysMove : Prop :=
  ∀ s : State, Inv s → ∃ t, step s = .next t

/-- 41 R84: a run ends within `floor((LEN - pc) / 4) + 1` steps; from the entry point, `floor(LEN / 4) + 1`. -/
def Obligations.RunEndsWithinFuel : Prop :=
  ∀ s : State, Memory.total s.len s.mem → s.eng = .running →
    ∃ t, engineLoop ((s.len - s.pc) / 4 + 1) s = .next t ∧ (t.eng = .halted ∨ t.eng = .faulted)

/-- 42 R106: every command ends, within `9801 * (floor(LEN / 4) + 2) + 1` steps of the machine. -/
def Obligations.EveryCommandEnds : Prop :=
  ∀ (s : State) (c : Command), Inv s → s.status.state ≠ .busy → c.representable s.params = true →
    ∃ n t, n ≤ 9801 * (s.len / 4 + 2) + 1 ∧ stepN n (s.setHost [.issue c]) = .next t ∧
      t.status.state ≠ .busy ∧ t.host = []

/-- 42 R87: the moves of the machine carry a command out exactly as the spec's pseudocode of that command, taken as one
atomic function. -/
def Obligations.StepsRefineAtomicCommand : Prop :=
  ∀ (s : State) (c : Command), Inv s → s.status.state ≠ .busy → c.representable s.params = true → s.host = [] →
    ∃ n t, stepN n (s.setHost [.issue c]) = .next t ∧ command c s = .next t ∧ t.status.state ≠ .busy

/-- 42 R102: what an iteration leaves in `ENG`, `MEM` below `LEN`, `OUT` and the cause depends on `SNAP` below `LEN`, on
`LEN`, on the parameters and on the pair alone. -/
def Obligations.IterationsAreIndependent : Prop :=
  ∀ (s t : State) (n v : Nat), s.params = t.params → s.len = t.len →
    (∀ a, a < s.len → s.snap.read a = t.snap.read a) → Memory.total s.len s.snap →
    ∃ s' t', execOnce n v s = .next s' ∧ execOnce n v t = .next t' ∧
      s'.eng = t'.eng ∧ s'.pc = t'.pc ∧ (∀ a, a < s.len → s'.mem.read a = t'.mem.read a) ∧
      (s'.eng = .halted → s'.out = t'.out) ∧ (s'.eng = .faulted → s'.status.cause = t'.status.cause)

/-- 42 R103, 95 V5: the same command twice, with no LOAD between but any other commands a host can send, gives the same
outcome twice: all six reads of the host agree. -/
def Obligations.CommandsAreRepeatable : Prop :=
  ∀ (s : State) (c : Command) (between : List Command), Inv s → s.status.state ≠ .busy →
    c.keepsImage = true → c.representable s.params = true →
    (∀ d ∈ between, d.keepsImage = true ∧ d.representable s.params = true) →
    ∃ t u v, command c s = .next t ∧ commandSeq between t = .next u ∧ command c u = .next v ∧ SameReads t v

/-- 42 R104: EXEC(n, v) on an image agrees with RUN on the image whose cells 1 and 2 are replaced by `n` and `v`. -/
def Obligations.ExecAgreesWithRun : Prop :=
  ∀ (s : State) (image : List Nat) (n v : Nat), 3 ≤ image.length →
    s.params.fits n = true → s.params.fits v = true →
    ∃ t u, command (.exec n v) (load image s) = .next t ∧
      command .run (load ((image.set 1 n).set 2 v) s) = .next u ∧
      t.status.state = u.status.state ∧ t.status.cause = u.status.cause ∧ readOut t = readMem 0 u ∧
      (t.status.state = .done ∨ t.status.state = .error)

/-- 42 R105, for any number as target: R91 gives `t` values below 2^W, and that a wider one runs too is the model's choice
(log 9, DEDUCED from 95 V109). SEARCH(t) finds the first pair whose EXEC gives `t`, if every pair before it ends DONE with
another output; it fails with the cause of the first pair whose EXEC fails, if none before it matches; it ends without
FOUND if all 9801 pairs end DONE with other outputs. -/
def Obligations.SearchAgreesWithExec : Prop :=
  ∀ (s : State) (g : Nat), Inv s → s.status.state ≠ .busy →
    ∃ t, command (.search g) s = .next t ∧
      ((∃ k, k < 9801 ∧ execReport (pairAt k).1 (pairAt k).2 s = some (some g, .none) ∧
          (∀ j, j < k → ∃ x, x ≠ g ∧ execReport (pairAt j).1 (pairAt j).2 s = some (some x, .none)) ∧
          t.status = { state := .done, cause := .none, op := .search, found := true } ∧
          readResult t = some (SearchResult.ofPair (pairAt k).1 (pairAt k).2) ∧
          readAnswer t = some (BitVec.ofNat 14 (100 * (pairAt k).1 + (pairAt k).2)) ∧ readOut t = some g) ∨
       ((∀ j, j < 9801 → ∃ x, x ≠ g ∧ execReport (pairAt j).1 (pairAt j).2 s = some (some x, .none)) ∧
          t.status = { state := .done, cause := .none, op := .search, found := false } ∧
          readResult t = some { resNoun := 0, resVerb := 0 } ∧ readAnswer t = some 0) ∨
       (∃ k f, k < 9801 ∧ execReport (pairAt k).1 (pairAt k).2 s = some (none, FaultKind.cause f) ∧
          (∀ j, j < k → ∃ x, x ≠ g ∧ execReport (pairAt j).1 (pairAt j).2 s = some (some x, .none)) ∧
          t.status = { state := .error, cause := f.cause, op := .search, found := false } ∧
          readResult t = none ∧ readAnswer t = none ∧ readOut t = none))

/-- 70 R139: if cell 0 of the image holds 99, noun and verb are written and never used: every EXEC gives 99. -/
def Obligations.HaltImageIgnoresNounAndVerb : Prop :=
  ∀ (s : State) (n v : Nat), 3 ≤ s.len → s.snap.read 0 = some 99 →
    execReport n v s = some (some 99, .none)

/-- 42 R103: a command's outcome, all six reads of the host, is a function of `SNAP` below `LEN`, of `LEN`, of the
parameters and of the command's arguments: two blocks that agree on these give the same. -/
def Obligations.OutcomeDependsOnImageAndCommand : Prop :=
  ∀ (s t : State) (c : Command), Inv s → Inv t → s.status.state ≠ .busy → t.status.state ≠ .busy →
    s.params = t.params → s.len = t.len → (∀ a, a < s.len → s.snap.read a = t.snap.read a) →
    c.keepsImage = true → c.representable s.params = true →
    ∃ u v, command c s = .next u ∧ command c t = .next v ∧ SameReads u v
end

