-- ==== Sys2Proof/Laws/State.lean ====
section
/-!
SUPPORT. Sys2Proof/Laws/State.lean: one lemma per field per update, so that no later proof unfolds a record update.
-/
namespace Sys2Proof.Machine

section
variable (s : State) (x : Memory)
@[simp] theorem State.setSnap_params : (s.setSnap x).params = s.params := rfl
@[simp] theorem State.setSnap_snap : (s.setSnap x).snap = x := rfl
@[simp] theorem State.setSnap_mem : (s.setSnap x).mem = s.mem := rfl
@[simp] theorem State.setSnap_len : (s.setSnap x).len = s.len := rfl
@[simp] theorem State.setSnap_pc : (s.setSnap x).pc = s.pc := rfl
@[simp] theorem State.setSnap_ir : (s.setSnap x).ir = s.ir := rfl
@[simp] theorem State.setSnap_eng : (s.setSnap x).eng = s.eng := rfl
@[simp] theorem State.setSnap_status : (s.setSnap x).status = s.status := rfl
@[simp] theorem State.setSnap_target : (s.setSnap x).target = s.target := rfl
@[simp] theorem State.setSnap_noun : (s.setSnap x).noun = s.noun := rfl
@[simp] theorem State.setSnap_verb : (s.setSnap x).verb = s.verb := rfl
@[simp] theorem State.setSnap_result : (s.setSnap x).result = s.result := rfl
@[simp] theorem State.setSnap_out : (s.setSnap x).out = s.out := rfl
@[simp] theorem State.setSnap_host : (s.setSnap x).host = s.host := rfl
end

section
variable (s : State) (x : Memory)
@[simp] theorem State.setMem_params : (s.setMem x).params = s.params := rfl
@[simp] theorem State.setMem_snap : (s.setMem x).snap = s.snap := rfl
@[simp] theorem State.setMem_mem : (s.setMem x).mem = x := rfl
@[simp] theorem State.setMem_len : (s.setMem x).len = s.len := rfl
@[simp] theorem State.setMem_pc : (s.setMem x).pc = s.pc := rfl
@[simp] theorem State.setMem_ir : (s.setMem x).ir = s.ir := rfl
@[simp] theorem State.setMem_eng : (s.setMem x).eng = s.eng := rfl
@[simp] theorem State.setMem_status : (s.setMem x).status = s.status := rfl
@[simp] theorem State.setMem_target : (s.setMem x).target = s.target := rfl
@[simp] theorem State.setMem_noun : (s.setMem x).noun = s.noun := rfl
@[simp] theorem State.setMem_verb : (s.setMem x).verb = s.verb := rfl
@[simp] theorem State.setMem_result : (s.setMem x).result = s.result := rfl
@[simp] theorem State.setMem_out : (s.setMem x).out = s.out := rfl
@[simp] theorem State.setMem_host : (s.setMem x).host = s.host := rfl
end

section
variable (s : State) (x : Nat)
@[simp] theorem State.setLen_params : (s.setLen x).params = s.params := rfl
@[simp] theorem State.setLen_snap : (s.setLen x).snap = s.snap := rfl
@[simp] theorem State.setLen_mem : (s.setLen x).mem = s.mem := rfl
@[simp] theorem State.setLen_len : (s.setLen x).len = x := rfl
@[simp] theorem State.setLen_pc : (s.setLen x).pc = s.pc := rfl
@[simp] theorem State.setLen_ir : (s.setLen x).ir = s.ir := rfl
@[simp] theorem State.setLen_eng : (s.setLen x).eng = s.eng := rfl
@[simp] theorem State.setLen_status : (s.setLen x).status = s.status := rfl
@[simp] theorem State.setLen_target : (s.setLen x).target = s.target := rfl
@[simp] theorem State.setLen_noun : (s.setLen x).noun = s.noun := rfl
@[simp] theorem State.setLen_verb : (s.setLen x).verb = s.verb := rfl
@[simp] theorem State.setLen_result : (s.setLen x).result = s.result := rfl
@[simp] theorem State.setLen_out : (s.setLen x).out = s.out := rfl
@[simp] theorem State.setLen_host : (s.setLen x).host = s.host := rfl
end

section
variable (s : State) (x : Nat)
@[simp] theorem State.setPc_params : (s.setPc x).params = s.params := rfl
@[simp] theorem State.setPc_snap : (s.setPc x).snap = s.snap := rfl
@[simp] theorem State.setPc_mem : (s.setPc x).mem = s.mem := rfl
@[simp] theorem State.setPc_len : (s.setPc x).len = s.len := rfl
@[simp] theorem State.setPc_pc : (s.setPc x).pc = x := rfl
@[simp] theorem State.setPc_ir : (s.setPc x).ir = s.ir := rfl
@[simp] theorem State.setPc_eng : (s.setPc x).eng = s.eng := rfl
@[simp] theorem State.setPc_status : (s.setPc x).status = s.status := rfl
@[simp] theorem State.setPc_target : (s.setPc x).target = s.target := rfl
@[simp] theorem State.setPc_noun : (s.setPc x).noun = s.noun := rfl
@[simp] theorem State.setPc_verb : (s.setPc x).verb = s.verb := rfl
@[simp] theorem State.setPc_result : (s.setPc x).result = s.result := rfl
@[simp] theorem State.setPc_out : (s.setPc x).out = s.out := rfl
@[simp] theorem State.setPc_host : (s.setPc x).host = s.host := rfl
end

section
variable (s : State) (x : Latches)
@[simp] theorem State.setIr_params : (s.setIr x).params = s.params := rfl
@[simp] theorem State.setIr_snap : (s.setIr x).snap = s.snap := rfl
@[simp] theorem State.setIr_mem : (s.setIr x).mem = s.mem := rfl
@[simp] theorem State.setIr_len : (s.setIr x).len = s.len := rfl
@[simp] theorem State.setIr_pc : (s.setIr x).pc = s.pc := rfl
@[simp] theorem State.setIr_ir : (s.setIr x).ir = x := rfl
@[simp] theorem State.setIr_eng : (s.setIr x).eng = s.eng := rfl
@[simp] theorem State.setIr_status : (s.setIr x).status = s.status := rfl
@[simp] theorem State.setIr_target : (s.setIr x).target = s.target := rfl
@[simp] theorem State.setIr_noun : (s.setIr x).noun = s.noun := rfl
@[simp] theorem State.setIr_verb : (s.setIr x).verb = s.verb := rfl
@[simp] theorem State.setIr_result : (s.setIr x).result = s.result := rfl
@[simp] theorem State.setIr_out : (s.setIr x).out = s.out := rfl
@[simp] theorem State.setIr_host : (s.setIr x).host = s.host := rfl
end

section
variable (s : State) (x : Engine)
@[simp] theorem State.setEng_params : (s.setEng x).params = s.params := rfl
@[simp] theorem State.setEng_snap : (s.setEng x).snap = s.snap := rfl
@[simp] theorem State.setEng_mem : (s.setEng x).mem = s.mem := rfl
@[simp] theorem State.setEng_len : (s.setEng x).len = s.len := rfl
@[simp] theorem State.setEng_pc : (s.setEng x).pc = s.pc := rfl
@[simp] theorem State.setEng_ir : (s.setEng x).ir = s.ir := rfl
@[simp] theorem State.setEng_eng : (s.setEng x).eng = x := rfl
@[simp] theorem State.setEng_status : (s.setEng x).status = s.status := rfl
@[simp] theorem State.setEng_target : (s.setEng x).target = s.target := rfl
@[simp] theorem State.setEng_noun : (s.setEng x).noun = s.noun := rfl
@[simp] theorem State.setEng_verb : (s.setEng x).verb = s.verb := rfl
@[simp] theorem State.setEng_result : (s.setEng x).result = s.result := rfl
@[simp] theorem State.setEng_out : (s.setEng x).out = s.out := rfl
@[simp] theorem State.setEng_host : (s.setEng x).host = s.host := rfl
end

section
variable (s : State) (x : Status)
@[simp] theorem State.setStatus_params : (s.setStatus x).params = s.params := rfl
@[simp] theorem State.setStatus_snap : (s.setStatus x).snap = s.snap := rfl
@[simp] theorem State.setStatus_mem : (s.setStatus x).mem = s.mem := rfl
@[simp] theorem State.setStatus_len : (s.setStatus x).len = s.len := rfl
@[simp] theorem State.setStatus_pc : (s.setStatus x).pc = s.pc := rfl
@[simp] theorem State.setStatus_ir : (s.setStatus x).ir = s.ir := rfl
@[simp] theorem State.setStatus_eng : (s.setStatus x).eng = s.eng := rfl
@[simp] theorem State.setStatus_status : (s.setStatus x).status = x := rfl
@[simp] theorem State.setStatus_target : (s.setStatus x).target = s.target := rfl
@[simp] theorem State.setStatus_noun : (s.setStatus x).noun = s.noun := rfl
@[simp] theorem State.setStatus_verb : (s.setStatus x).verb = s.verb := rfl
@[simp] theorem State.setStatus_result : (s.setStatus x).result = s.result := rfl
@[simp] theorem State.setStatus_out : (s.setStatus x).out = s.out := rfl
@[simp] theorem State.setStatus_host : (s.setStatus x).host = s.host := rfl
end

section
variable (s : State) (x : Nat)
@[simp] theorem State.setTarget_params : (s.setTarget x).params = s.params := rfl
@[simp] theorem State.setTarget_snap : (s.setTarget x).snap = s.snap := rfl
@[simp] theorem State.setTarget_mem : (s.setTarget x).mem = s.mem := rfl
@[simp] theorem State.setTarget_len : (s.setTarget x).len = s.len := rfl
@[simp] theorem State.setTarget_pc : (s.setTarget x).pc = s.pc := rfl
@[simp] theorem State.setTarget_ir : (s.setTarget x).ir = s.ir := rfl
@[simp] theorem State.setTarget_eng : (s.setTarget x).eng = s.eng := rfl
@[simp] theorem State.setTarget_status : (s.setTarget x).status = s.status := rfl
@[simp] theorem State.setTarget_target : (s.setTarget x).target = x := rfl
@[simp] theorem State.setTarget_noun : (s.setTarget x).noun = s.noun := rfl
@[simp] theorem State.setTarget_verb : (s.setTarget x).verb = s.verb := rfl
@[simp] theorem State.setTarget_result : (s.setTarget x).result = s.result := rfl
@[simp] theorem State.setTarget_out : (s.setTarget x).out = s.out := rfl
@[simp] theorem State.setTarget_host : (s.setTarget x).host = s.host := rfl
end

section
variable (s : State) (x : Nat)
@[simp] theorem State.setNoun_params : (s.setNoun x).params = s.params := rfl
@[simp] theorem State.setNoun_snap : (s.setNoun x).snap = s.snap := rfl
@[simp] theorem State.setNoun_mem : (s.setNoun x).mem = s.mem := rfl
@[simp] theorem State.setNoun_len : (s.setNoun x).len = s.len := rfl
@[simp] theorem State.setNoun_pc : (s.setNoun x).pc = s.pc := rfl
@[simp] theorem State.setNoun_ir : (s.setNoun x).ir = s.ir := rfl
@[simp] theorem State.setNoun_eng : (s.setNoun x).eng = s.eng := rfl
@[simp] theorem State.setNoun_status : (s.setNoun x).status = s.status := rfl
@[simp] theorem State.setNoun_target : (s.setNoun x).target = s.target := rfl
@[simp] theorem State.setNoun_noun : (s.setNoun x).noun = x := rfl
@[simp] theorem State.setNoun_verb : (s.setNoun x).verb = s.verb := rfl
@[simp] theorem State.setNoun_result : (s.setNoun x).result = s.result := rfl
@[simp] theorem State.setNoun_out : (s.setNoun x).out = s.out := rfl
@[simp] theorem State.setNoun_host : (s.setNoun x).host = s.host := rfl
end

section
variable (s : State) (x : Nat)
@[simp] theorem State.setVerb_params : (s.setVerb x).params = s.params := rfl
@[simp] theorem State.setVerb_snap : (s.setVerb x).snap = s.snap := rfl
@[simp] theorem State.setVerb_mem : (s.setVerb x).mem = s.mem := rfl
@[simp] theorem State.setVerb_len : (s.setVerb x).len = s.len := rfl
@[simp] theorem State.setVerb_pc : (s.setVerb x).pc = s.pc := rfl
@[simp] theorem State.setVerb_ir : (s.setVerb x).ir = s.ir := rfl
@[simp] theorem State.setVerb_eng : (s.setVerb x).eng = s.eng := rfl
@[simp] theorem State.setVerb_status : (s.setVerb x).status = s.status := rfl
@[simp] theorem State.setVerb_target : (s.setVerb x).target = s.target := rfl
@[simp] theorem State.setVerb_noun : (s.setVerb x).noun = s.noun := rfl
@[simp] theorem State.setVerb_verb : (s.setVerb x).verb = x := rfl
@[simp] theorem State.setVerb_result : (s.setVerb x).result = s.result := rfl
@[simp] theorem State.setVerb_out : (s.setVerb x).out = s.out := rfl
@[simp] theorem State.setVerb_host : (s.setVerb x).host = s.host := rfl
end

section
variable (s : State) (x : SearchResult)
@[simp] theorem State.setResult_params : (s.setResult x).params = s.params := rfl
@[simp] theorem State.setResult_snap : (s.setResult x).snap = s.snap := rfl
@[simp] theorem State.setResult_mem : (s.setResult x).mem = s.mem := rfl
@[simp] theorem State.setResult_len : (s.setResult x).len = s.len := rfl
@[simp] theorem State.setResult_pc : (s.setResult x).pc = s.pc := rfl
@[simp] theorem State.setResult_ir : (s.setResult x).ir = s.ir := rfl
@[simp] theorem State.setResult_eng : (s.setResult x).eng = s.eng := rfl
@[simp] theorem State.setResult_status : (s.setResult x).status = s.status := rfl
@[simp] theorem State.setResult_target : (s.setResult x).target = s.target := rfl
@[simp] theorem State.setResult_noun : (s.setResult x).noun = s.noun := rfl
@[simp] theorem State.setResult_verb : (s.setResult x).verb = s.verb := rfl
@[simp] theorem State.setResult_result : (s.setResult x).result = x := rfl
@[simp] theorem State.setResult_out : (s.setResult x).out = s.out := rfl
@[simp] theorem State.setResult_host : (s.setResult x).host = s.host := rfl
end

section
variable (s : State) (x : Nat)
@[simp] theorem State.setOut_params : (s.setOut x).params = s.params := rfl
@[simp] theorem State.setOut_snap : (s.setOut x).snap = s.snap := rfl
@[simp] theorem State.setOut_mem : (s.setOut x).mem = s.mem := rfl
@[simp] theorem State.setOut_len : (s.setOut x).len = s.len := rfl
@[simp] theorem State.setOut_pc : (s.setOut x).pc = s.pc := rfl
@[simp] theorem State.setOut_ir : (s.setOut x).ir = s.ir := rfl
@[simp] theorem State.setOut_eng : (s.setOut x).eng = s.eng := rfl
@[simp] theorem State.setOut_status : (s.setOut x).status = s.status := rfl
@[simp] theorem State.setOut_target : (s.setOut x).target = s.target := rfl
@[simp] theorem State.setOut_noun : (s.setOut x).noun = s.noun := rfl
@[simp] theorem State.setOut_verb : (s.setOut x).verb = s.verb := rfl
@[simp] theorem State.setOut_result : (s.setOut x).result = s.result := rfl
@[simp] theorem State.setOut_out : (s.setOut x).out = x := rfl
@[simp] theorem State.setOut_host : (s.setOut x).host = s.host := rfl
end

section
variable (s : State) (x : List HostMove)
@[simp] theorem State.setHost_params : (s.setHost x).params = s.params := rfl
@[simp] theorem State.setHost_snap : (s.setHost x).snap = s.snap := rfl
@[simp] theorem State.setHost_mem : (s.setHost x).mem = s.mem := rfl
@[simp] theorem State.setHost_len : (s.setHost x).len = s.len := rfl
@[simp] theorem State.setHost_pc : (s.setHost x).pc = s.pc := rfl
@[simp] theorem State.setHost_ir : (s.setHost x).ir = s.ir := rfl
@[simp] theorem State.setHost_eng : (s.setHost x).eng = s.eng := rfl
@[simp] theorem State.setHost_status : (s.setHost x).status = s.status := rfl
@[simp] theorem State.setHost_target : (s.setHost x).target = s.target := rfl
@[simp] theorem State.setHost_noun : (s.setHost x).noun = s.noun := rfl
@[simp] theorem State.setHost_verb : (s.setHost x).verb = s.verb := rfl
@[simp] theorem State.setHost_result : (s.setHost x).result = s.result := rfl
@[simp] theorem State.setHost_out : (s.setHost x).out = s.out := rfl
@[simp] theorem State.setHost_host : (s.setHost x).host = x := rfl
end

section
variable (s : State)
@[simp] theorem advancePc_params : (advancePc s).params = s.params := rfl
@[simp] theorem advancePc_snap : (advancePc s).snap = s.snap := rfl
@[simp] theorem advancePc_mem : (advancePc s).mem = s.mem := rfl
@[simp] theorem advancePc_len : (advancePc s).len = s.len := rfl
@[simp] theorem advancePc_pc : (advancePc s).pc = s.pc + 4 := rfl
@[simp] theorem advancePc_ir : (advancePc s).ir = s.ir := rfl
@[simp] theorem advancePc_eng : (advancePc s).eng = s.eng := rfl
@[simp] theorem advancePc_status : (advancePc s).status = s.status := rfl
@[simp] theorem advancePc_target : (advancePc s).target = s.target := rfl
@[simp] theorem advancePc_noun : (advancePc s).noun = s.noun := rfl
@[simp] theorem advancePc_verb : (advancePc s).verb = s.verb := rfl
@[simp] theorem advancePc_result : (advancePc s).result = s.result := rfl
@[simp] theorem advancePc_out : (advancePc s).out = s.out := rfl
@[simp] theorem advancePc_host : (advancePc s).host = s.host := rfl
end

section
variable (k : FaultKind) (s : State)
@[simp] theorem takeFault_params : (takeFault k s).params = s.params := rfl
@[simp] theorem takeFault_snap : (takeFault k s).snap = s.snap := rfl
@[simp] theorem takeFault_mem : (takeFault k s).mem = s.mem := rfl
@[simp] theorem takeFault_len : (takeFault k s).len = s.len := rfl
@[simp] theorem takeFault_pc : (takeFault k s).pc = s.pc := rfl
@[simp] theorem takeFault_ir : (takeFault k s).ir = s.ir := rfl
@[simp] theorem takeFault_eng : (takeFault k s).eng = .faulted := rfl
@[simp] theorem takeFault_status : (takeFault k s).status = { state := .error, cause := k.cause, op := s.status.op, found := false } := rfl
@[simp] theorem takeFault_target : (takeFault k s).target = s.target := rfl
@[simp] theorem takeFault_noun : (takeFault k s).noun = s.noun := rfl
@[simp] theorem takeFault_verb : (takeFault k s).verb = s.verb := rfl
@[simp] theorem takeFault_result : (takeFault k s).result = s.result := rfl
@[simp] theorem takeFault_out : (takeFault k s).out = s.out := rfl
@[simp] theorem takeFault_host : (takeFault k s).host = s.host := rfl
end

end Sys2Proof.Machine
end

