-- ==== Sys2Proof/Laws/Ops.lean ====
section
/-!
SUPPORT. Sys2Proof/Laws/Ops.lean: what each operation over memories and each checked access can do, said once.
-/
namespace Sys2Proof.Machine

/-! ## Memories: read after write -/

@[simp] theorem Memory.read_nil (a : Nat) : Memory.read [] a = none := rfl

@[simp] theorem Memory.read_cons (b w : Nat) (m : Memory) (a : Nat) :
    Memory.read ((b, w) :: m) a = if b = a then some w else Memory.read m a := rfl

@[simp] theorem Memory.read_write_same (m : Memory) (a : Nat) (v : Nat) : (m.write a v).read a = some v := by
  induction m with
  | nil => simp [Memory.write]
  | cons c m ih =>
    obtain ⟨b, w⟩ := c
    simp only [Memory.write]
    split
    · simp
    · split
      · simp
      · rw [Memory.read_cons, if_neg (by omega), ih]

theorem Memory.read_write_other (m : Memory) {a x : Nat} (v : Nat) (h : x ≠ a) :
    (m.write a v).read x = m.read x := by
  induction m with
  | nil => simp [Memory.write, Ne.symm h]
  | cons c m ih =>
    obtain ⟨b, w⟩ := c
    simp only [Memory.write]
    split
    · simp [Ne.symm h]
    · split
      · rename_i hab
        subst hab
        simp [Ne.symm h]
      · rw [Memory.read_cons, Memory.read_cons, ih]

theorem Memory.read_write (m : Memory) (a x : Nat) (v : Nat) :
    (m.write a v).read x = if x = a then some v else m.read x := by
  split
  · rename_i h; subst h; simp
  · rename_i h; exact Memory.read_write_other m v h

/-- The cells of a written memory: the new one, or an old one. -/
theorem Memory.mem_write {m : Memory} {a : Nat} {v : Nat} {c : Nat × Nat} (h : c ∈ m.write a v) :
    c = (a, v) ∨ c ∈ m := by
  induction m with
  | nil => simpa [Memory.write] using h
  | cons d m ih =>
    obtain ⟨b, w⟩ := d
    simp only [Memory.write] at h
    split at h
    · simpa using h
    · split at h
      · rcases List.mem_cons.mp h with h | h
        · exact .inl h
        · exact .inr (List.mem_cons_of_mem _ h)
      · rcases List.mem_cons.mp h with h | h
        · exact .inr (h ▸ List.mem_cons_self)
        · rcases ih h with h | h
          · exact .inl h
          · exact .inr (List.mem_cons_of_mem _ h)

/-! ## Memories: the canonical form -/

/-- The canonical form says that every address is below every later one. -/
theorem Memory.wf_iff_pairwise (m : Memory) : m.wf = true ↔ m.Pairwise (fun c d => c.1 < d.1) := by
  induction m with
  | nil => simp [Memory.wf]
  | cons c m ih =>
    obtain ⟨a, w⟩ := c
    cases m with
    | nil => simp [Memory.wf]
    | cons d m =>
      obtain ⟨b, x⟩ := d
      rw [Memory.wf, Bool.and_eq_true, ih, decide_eq_true_eq]
      constructor
      · rintro ⟨hab, hm⟩
        refine List.pairwise_cons.mpr ⟨?_, hm⟩
        intro e he
        rcases List.mem_cons.mp he with rfl | he
        · exact hab
        · exact Nat.lt_trans hab ((List.pairwise_cons.mp hm).1 e he)
      · intro h
        obtain ⟨ha, hm⟩ := List.pairwise_cons.mp h
        exact ⟨ha _ List.mem_cons_self, hm⟩

theorem Memory.wf_write {m : Memory} (h : m.wf = true) (a : Nat) (v : Nat) : (m.write a v).wf = true := by
  rw [Memory.wf_iff_pairwise] at *
  induction m with
  | nil => simp [Memory.write]
  | cons c m ih =>
    obtain ⟨b, w⟩ := c
    obtain ⟨hb, hm⟩ := List.pairwise_cons.mp h
    simp only [Memory.write]
    split
    · rename_i hab
      refine List.pairwise_cons.mpr ⟨?_, h⟩
      intro e he
      rcases List.mem_cons.mp he with rfl | he
      · exact hab
      · exact Nat.lt_trans hab (hb e he)
    · split
      · rename_i hab
        subst hab
        exact List.pairwise_cons.mpr ⟨hb, hm⟩
      · refine List.pairwise_cons.mpr ⟨?_, ih hm⟩
        intro e he
        rcases Memory.mem_write he with rfl | he
        · show b < a
          omega
        · exact hb e he

theorem Memory.wf_copyBelow {src dst : Memory} (hs : src.wf = true) (hd : dst.wf = true) (n : Nat) :
    (Memory.copyBelow src dst n).wf = true := by
  rw [Memory.wf_iff_pairwise] at *
  refine List.pairwise_append.mpr ⟨hs.filter _, hd.filter _, ?_⟩
  intro c hc d hd
  have hc := (List.mem_filter.mp hc).2
  have hd := (List.mem_filter.mp hd).2
  simp only [decide_eq_true_eq] at hc hd
  omega

theorem Memory.mem_ofCells {a : Nat} {vs : List Nat} {c : Nat × Nat} (h : c ∈ Memory.ofCells a vs) :
    a ≤ c.1 ∧ c.1 < a + vs.length ∧ c.2 ∈ vs := by
  induction vs generalizing a with
  | nil => simp [Memory.ofCells] at h
  | cons v vs ih =>
    rcases List.mem_cons.mp h with rfl | h
    · simp
    · obtain ⟨h1, h2, h3⟩ := ih h
      simp only [List.length_cons]
      exact ⟨by omega, by omega, List.mem_cons_of_mem _ h3⟩

theorem Memory.wf_ofCells (a : Nat) (vs : List Nat) : (Memory.ofCells a vs).wf = true := by
  rw [Memory.wf_iff_pairwise]
  induction vs generalizing a with
  | nil => exact List.Pairwise.nil
  | cons v vs ih =>
    refine List.pairwise_cons.mpr ⟨?_, ih (a + 1)⟩
    intro c hc
    have := (Memory.mem_ofCells hc).1
    show a < c.1
    omega

/-- The memory a `LOAD` leaves in `SNAP` is canonical. -/
theorem Memory.wf_image {m : Memory} (h : m.wf = true) (vs : List Nat) :
    (Memory.ofCells 0 vs ++ m.beyond vs.length).wf = true := by
  have h1 := (Memory.wf_iff_pairwise _).mp (Memory.wf_ofCells 0 vs)
  have h2 := (Memory.wf_iff_pairwise _).mp h
  rw [Memory.wf_iff_pairwise]
  refine List.pairwise_append.mpr ⟨h1, h2.filter _, ?_⟩
  intro c hc d hd
  have hc := (Memory.mem_ofCells hc).2.1
  have hd := (List.mem_filter.mp hd).2
  simp only [decide_eq_true_eq] at hd
  omega

/-! ## Memories: copies and images -/

theorem Memory.read_append (m n : Memory) (a : Nat) :
    Memory.read (m ++ n) a = (Memory.read m a).or (Memory.read n a) := by
  induction m with
  | nil => simp
  | cons c m ih =>
    obtain ⟨b, w⟩ := c
    rw [List.cons_append, Memory.read_cons, Memory.read_cons, ih]
    split <;> simp

theorem Memory.read_below (m : Memory) (n a : Nat) :
    (m.below n).read a = if a < n then m.read a else none := by
  induction m with
  | nil => simp [Memory.below]
  | cons c m ih =>
    obtain ⟨b, w⟩ := c
    unfold Memory.below at *
    by_cases hb : b < n
    · rw [List.filter_cons_of_pos (by simpa using hb), Memory.read_cons, Memory.read_cons, ih]
      by_cases hba : b = a
      · subst hba; simp [hb]
      · simp [hba]
    · rw [List.filter_cons_of_neg (by simpa using hb), ih, Memory.read_cons]
      split
      · rw [if_neg (by omega)]
      · rfl

theorem Memory.read_beyond (m : Memory) (n a : Nat) :
    (m.beyond n).read a = if a < n then none else m.read a := by
  induction m with
  | nil => simp [Memory.beyond]
  | cons c m ih =>
    obtain ⟨b, w⟩ := c
    unfold Memory.beyond at *
    by_cases hb : n ≤ b
    · rw [List.filter_cons_of_pos (by simpa using hb), Memory.read_cons, Memory.read_cons, ih]
      by_cases hba : b = a
      · subst hba; simp [Nat.not_lt.mpr hb]
      · simp [hba]
    · rw [List.filter_cons_of_neg (by simpa using hb), ih, Memory.read_cons]
      split
      · rfl
      · rw [if_neg (by omega)]

/-- A copy below `n` reads as its source below `n` and as its destination beyond (42 R93). -/
theorem Memory.read_copyBelow (src dst : Memory) (n a : Nat) :
    (Memory.copyBelow src dst n).read a = if a < n then src.read a else dst.read a := by
  rw [Memory.copyBelow, Memory.read_append, Memory.read_below, Memory.read_beyond]
  split <;> simp

theorem Memory.read_ofCells (a : Nat) (vs : List Nat) (x : Nat) :
    (Memory.ofCells a vs).read x = if x < a then none else vs[x - a]? := by
  induction vs generalizing a with
  | nil => simp [Memory.ofCells]
  | cons v vs ih =>
    rw [Memory.ofCells, Memory.read_cons, ih]
    by_cases h : a = x
    · subst h; simp
    · by_cases hx : x < a
      · simp [h, hx, Nat.lt_succ_of_lt hx]
      · have hsub : x - a = x - (a + 1) + 1 := by omega
        rw [if_neg h, if_neg (by omega), if_neg hx, hsub, List.getElem?_cons_succ]

/-- What `LOAD` leaves in `SNAP`: the image below its length, the old cells beyond (42 R88). -/
theorem Memory.read_image (m : Memory) (vs : List Nat) (x : Nat) :
    Memory.read (Memory.ofCells 0 vs ++ m.beyond vs.length) x = if x < vs.length then vs[x]? else m.read x := by
  rw [Memory.read_append, Memory.read_ofCells, Memory.read_beyond, if_neg (Nat.not_lt_zero x), Nat.sub_zero]
  split
  · rename_i h; simp [h]
  · rename_i h; simp [List.getElem?_eq_none (Nat.not_lt.mp h)]

/-- Cells written one after another are what their addresses then read; every other address reads as before. -/
theorem Memory.read_writeCells (m : Memory) (a : Nat) (vs : List Nat) (x : Nat) :
    (m.writeCells a vs).read x = if x < a then m.read x else (vs[x - a]?).or (m.read x) := by
  induction vs generalizing m a with
  | nil => simp [Memory.writeCells]
  | cons v vs ih =>
    rw [Memory.writeCells, ih, Memory.read_write]
    by_cases hx : x = a
    · subst hx; simp
    · by_cases h : x < a
      · simp [hx, h, Nat.lt_succ_of_lt h]
      · have hsub : x - a = x - (a + 1) + 1 := by omega
        rw [if_neg (by omega), if_neg h, if_neg hx, hsub, List.getElem?_cons_succ]

/-- Writing cells one after another keeps the canonical form. -/
theorem Memory.wf_writeCells {m : Memory} (h : m.wf = true) (a : Nat) (vs : List Nat) :
    (m.writeCells a vs).wf = true := by
  induction vs generalizing m a with
  | nil => exact h
  | cons v vs ih => exact ih (Memory.wf_write h a v) (a + 1)

/-! ## Sequences of accesses -/

section
variable {α β : Type} (f : α → State → Access β)
@[simp] theorem Access.ok_andThen (v : α) (s : State) : (Access.ok v s).andThen f = f v s := rfl
@[simp] theorem Access.raised_andThen (k : FaultKind) (s : State) :
    (Access.raised k s : Access α).andThen f = .raised k s := rfl
@[simp] theorem Access.unwritten_andThen : (Access.unwritten : Access α).andThen f = .unwritten := rfl
end

@[simp] theorem conclude_ok (s : State) : conclude (.ok () s) = .next s := rfl
@[simp] theorem conclude_raised (k : FaultKind) (s : State) : conclude (.raised k s) = .next (takeFault k s) := rfl
@[simp] theorem conclude_unwritten : conclude .unwritten = .fault .unwrittenCell := rfl

/-! ## The checked accesses (20 R34, R35) -/

theorem memRead_beyond {a : Nat} {s : State} (h : s.len ≤ a) : memRead a s = .raised .boundary s := if_pos h

theorem memRead_ok {a : Nat} {v : Nat} {s : State} (h : a < s.len) (hv : s.mem.read a = some v) :
    memRead a s = .ok v s := by
  rw [memRead, if_neg (by omega), hv]

/-- Everything a checked read can come to; it never changes the state. -/
theorem memRead_cases (a : Nat) (s : State) :
    (s.len ≤ a ∧ memRead a s = .raised .boundary s) ∨
    (∃ v, a < s.len ∧ s.mem.read a = some v ∧ memRead a s = .ok v s) ∨
    (a < s.len ∧ s.mem.read a = none ∧ memRead a s = .unwritten) := by
  by_cases h : s.len ≤ a
  · exact .inl ⟨h, memRead_beyond h⟩
  · have h' : a < s.len := by omega
    cases hv : s.mem.read a with
    | none => exact .inr (.inr ⟨h', rfl, by rw [memRead, if_neg h, hv]⟩)
    | some v => exact .inr (.inl ⟨v, h', rfl, memRead_ok h' hv⟩)

theorem memWrite_beyond {a : Nat} {v : Nat} {s : State} (h : s.len ≤ a) :
    memWrite a v s = .raised .boundary s := if_pos h

theorem memWrite_ok {a : Nat} {v : Nat} {s : State} (h : a < s.len) :
    memWrite a v s = .ok () (s.setMem (s.mem.write a v)) := if_neg (by omega)

/-- Everything a checked write can come to. -/
theorem memWrite_cases (a : Nat) (v : Nat) (s : State) :
    (s.len ≤ a ∧ memWrite a v s = .raised .boundary s) ∨
    (a < s.len ∧ memWrite a v s = .ok () (s.setMem (s.mem.write a v))) := by
  by_cases h : s.len ≤ a
  · exact .inl ⟨h, memWrite_beyond h⟩
  · exact .inr ⟨by omega, memWrite_ok (by omega)⟩

/-! ## The sequencer's primitives -/

/-- Everything `Inject` can come to (42 R94). -/
theorem inject_cases (n v : Nat) (s : State) :
    (s.len < 2 ∧ inject n v s = .raised .boundary s) ∨
    (s.len = 2 ∧ inject n v s = .raised .boundary (s.setMem (s.mem.write 1 n))) ∨
    (2 < s.len ∧ inject n v s = .ok () (s.setMem ((s.mem.write 1 n).write 2 v))) := by
  by_cases h1 : s.len ≤ 1
  · exact .inl ⟨by omega, by rw [inject, memWrite_beyond h1]; rfl⟩
  · rw [inject, memWrite_ok (show Config.nounPos < s.len by show 1 < s.len; omega), Access.ok_andThen]
    by_cases h2 : s.len ≤ 2
    · exact .inr (.inl ⟨by omega, memWrite_beyond h2⟩)
    · exact .inr (.inr ⟨by omega, memWrite_ok (by show 2 < s.len; omega)⟩)

theorem inject_ne_unwritten (n v : Nat) (s : State) : inject n v s ≠ .unwritten := by
  rcases inject_cases n v s with ⟨-, h⟩ | ⟨-, h⟩ | ⟨-, h⟩ <;> simp [h]

section
variable (s : State)
@[simp] theorem restore_params : (restore s).params = s.params := rfl
@[simp] theorem restore_snap : (restore s).snap = s.snap := rfl
@[simp] theorem restore_mem : (restore s).mem = Memory.copyBelow s.snap s.mem s.len := rfl
@[simp] theorem restore_len : (restore s).len = s.len := rfl
@[simp] theorem restore_pc : (restore s).pc = 0 := rfl
@[simp] theorem restore_ir : (restore s).ir = s.ir := rfl
@[simp] theorem restore_eng : (restore s).eng = .running := rfl
@[simp] theorem restore_status : (restore s).status = s.status := rfl
@[simp] theorem restore_target : (restore s).target = s.target := rfl
@[simp] theorem restore_noun : (restore s).noun = s.noun := rfl
@[simp] theorem restore_verb : (restore s).verb = s.verb := rfl
@[simp] theorem restore_result : (restore s).result = s.result := rfl
@[simp] theorem restore_out : (restore s).out = s.out := rfl
@[simp] theorem restore_host : (restore s).host = s.host := rfl
end

section
variable (n v : Nat) (s : State)
@[simp] theorem setPair_params : (setPair n v s).params = s.params := rfl
@[simp] theorem setPair_snap : (setPair n v s).snap = s.snap := rfl
@[simp] theorem setPair_mem : (setPair n v s).mem = s.mem := rfl
@[simp] theorem setPair_len : (setPair n v s).len = s.len := rfl
@[simp] theorem setPair_pc : (setPair n v s).pc = s.pc := rfl
@[simp] theorem setPair_ir : (setPair n v s).ir = s.ir := rfl
@[simp] theorem setPair_eng : (setPair n v s).eng = s.eng := rfl
@[simp] theorem setPair_status : (setPair n v s).status = s.status := rfl
@[simp] theorem setPair_target : (setPair n v s).target = s.target := rfl
@[simp] theorem setPair_noun : (setPair n v s).noun = n := rfl
@[simp] theorem setPair_verb : (setPair n v s).verb = v := rfl
@[simp] theorem setPair_result : (setPair n v s).result = s.result := rfl
@[simp] theorem setPair_out : (setPair n v s).out = s.out := rfl
@[simp] theorem setPair_host : (setPair n v s).host = s.host := rfl
end

section
variable (t : Nat) (s : State)
@[simp] theorem startSearch_params : (startSearch t s).params = s.params := rfl
@[simp] theorem startSearch_snap : (startSearch t s).snap = s.snap := rfl
@[simp] theorem startSearch_mem : (startSearch t s).mem = s.mem := rfl
@[simp] theorem startSearch_len : (startSearch t s).len = s.len := rfl
@[simp] theorem startSearch_pc : (startSearch t s).pc = s.pc := rfl
@[simp] theorem startSearch_ir : (startSearch t s).ir = s.ir := rfl
@[simp] theorem startSearch_eng : (startSearch t s).eng = s.eng := rfl
@[simp] theorem startSearch_status : (startSearch t s).status = Status.inProgress .search := rfl
@[simp] theorem startSearch_target : (startSearch t s).target = t := rfl
@[simp] theorem startSearch_noun : (startSearch t s).noun = s.noun := rfl
@[simp] theorem startSearch_verb : (startSearch t s).verb = s.verb := rfl
@[simp] theorem startSearch_result : (startSearch t s).result = SearchResult.reset := rfl
@[simp] theorem startSearch_out : (startSearch t s).out = s.out := rfl
@[simp] theorem startSearch_host : (startSearch t s).host = s.host := rfl
end

section
variable (s : State)
@[simp] theorem matched_params : (matched s).params = s.params := rfl
@[simp] theorem matched_snap : (matched s).snap = s.snap := rfl
@[simp] theorem matched_mem : (matched s).mem = s.mem := rfl
@[simp] theorem matched_len : (matched s).len = s.len := rfl
@[simp] theorem matched_pc : (matched s).pc = s.pc := rfl
@[simp] theorem matched_ir : (matched s).ir = s.ir := rfl
@[simp] theorem matched_eng : (matched s).eng = s.eng := rfl
@[simp] theorem matched_status : (matched s).status = Status.completed .search true := rfl
@[simp] theorem matched_target : (matched s).target = s.target := rfl
@[simp] theorem matched_noun : (matched s).noun = s.noun := rfl
@[simp] theorem matched_verb : (matched s).verb = s.verb := rfl
@[simp] theorem matched_result : (matched s).result = SearchResult.ofPair s.noun s.verb := rfl
@[simp] theorem matched_out : (matched s).out = s.out := rfl
@[simp] theorem matched_host : (matched s).host = s.host := rfl
end

section
variable (s : State)
@[simp] theorem hardReset_params : (hardReset s).params = s.params := rfl
@[simp] theorem hardReset_snap : (hardReset s).snap = State.reset.snap := rfl
@[simp] theorem hardReset_mem : (hardReset s).mem = State.reset.mem := rfl
@[simp] theorem hardReset_len : (hardReset s).len = State.reset.len := rfl
@[simp] theorem hardReset_pc : (hardReset s).pc = State.reset.pc := rfl
@[simp] theorem hardReset_ir : (hardReset s).ir = State.reset.ir := rfl
@[simp] theorem hardReset_eng : (hardReset s).eng = State.reset.eng := rfl
@[simp] theorem hardReset_status : (hardReset s).status = State.reset.status := rfl
@[simp] theorem hardReset_target : (hardReset s).target = State.reset.target := rfl
@[simp] theorem hardReset_noun : (hardReset s).noun = State.reset.noun := rfl
@[simp] theorem hardReset_verb : (hardReset s).verb = State.reset.verb := rfl
@[simp] theorem hardReset_result : (hardReset s).result = State.reset.result := rfl
@[simp] theorem hardReset_out : (hardReset s).out = State.reset.out := rfl
@[simp] theorem hardReset_host : (hardReset s).host = s.host := rfl
end

/-- Everything the beginning of an iteration can come to (42 R94, R95). -/
theorem beginIteration_cases (n v : Nat) (s : State) :
    (s.len < 2 ∧ beginIteration n v s = takeFault .boundary (restore s)) ∨
    (s.len = 2 ∧ beginIteration n v s = takeFault .boundary ((restore s).setMem ((restore s).mem.write 1 n))) ∨
    (2 < s.len ∧ beginIteration n v s = (restore s).setMem (((restore s).mem.write 1 n).write 2 v)) := by
  have h := inject_cases n v (restore s)
  simp only [restore_len] at h
  rcases h with ⟨hl, h⟩ | ⟨hl, h⟩ | ⟨hl, h⟩
  · exact .inl ⟨hl, by rw [beginIteration, h]; rfl⟩
  · exact .inr (.inl ⟨hl, by rw [beginIteration, h]; rfl⟩)
  · exact .inr (.inr ⟨hl, by rw [beginIteration, h]; rfl⟩)

end Sys2Proof.Machine
end

