-- ==== Sys2Proof/Laws/Exec.lean ====
section
/-!
SUPPORT. Sys2Proof/Laws/Exec.lean: what the shared body of ADD and MUL and the fetch can do, said once.
-/
namespace Sys2Proof.Machine

/-- ADD and MUL with both sources readable: the overflow test, then the bound of the destination (60 R115). -/
theorem computeAndStore_sources {alu : Nat → Nat → Nat} {a b d : Nat} {va vb : Nat} {s : State}
    (ha : a < s.len) (hb : b < s.len) (hva : s.mem.read a = some va) (hvb : s.mem.read b = some vb) :
    computeAndStore alu a b d s =
      if s.params.fits (alu va vb) = false then .raised .overflow s
      else if s.len ≤ d then .raised .boundary s
      else .ok () (advancePc (s.setMem (s.mem.write d (alu va vb)))) := by
  simp only [computeAndStore, sourceValues, sourceValue, memRead_ok ha hva, memRead_ok hb hvb, Access.ok_andThen,
    checkResult, overflows]
  by_cases hf : s.params.fits (alu va vb) = true
  · rcases memWrite_cases d (alu va vb) s with ⟨hd, h⟩ | ⟨hd, h⟩
    · simp [storeDestination, h, hd, hf]
    · simp [storeDestination, h, Nat.not_le.mpr hd, hf]
  · simp [hf]

/-- ADD and MUL with a source at `LEN` or beyond, the cells before it readable: a BoundaryFault. -/
theorem computeAndStore_source_beyond {alu : Nat → Nat → Nat} {a b d : Nat} {s : State}
    (h : s.len ≤ a ∨ (s.len ≤ b ∧ ∃ va, s.mem.read a = some va)) :
    computeAndStore alu a b d s = .raised .boundary s := by
  rcases h with h | ⟨hb, va, hva⟩
  · simp [computeAndStore, sourceValues, sourceValue, memRead_beyond h]
  · by_cases ha : s.len ≤ a
    · simp [computeAndStore, sourceValues, sourceValue, memRead_beyond ha]
    · simp [computeAndStore, sourceValues, sourceValue, memRead_ok (by omega : a < s.len) hva, memRead_beyond hb]

/-- Everything the body of ADD and MUL can come to. -/
theorem computeAndStore_cases (alu : Nat → Nat → Nat) (a b d : Nat) (s : State) :
    (∃ va vb, a < s.len ∧ b < s.len ∧ d < s.len ∧ s.mem.read a = some va ∧ s.mem.read b = some vb ∧
      s.params.fits (alu va vb) = true ∧
      computeAndStore alu a b d s = .ok () (advancePc (s.setMem (s.mem.write d (alu va vb))))) ∨
    (∃ k, computeAndStore alu a b d s = .raised k s ∧ (k = .overflow → ∃ r, s.params.fits r = false)) ∨
    (((a < s.len ∧ s.mem.read a = none) ∨ (b < s.len ∧ s.mem.read b = none)) ∧
      computeAndStore alu a b d s = .unwritten) := by
  rcases memRead_cases a s with ⟨ha, h⟩ | ⟨va, ha, hva, h⟩ | ⟨ha, hva, h⟩
  · exact .inr (.inl ⟨_, computeAndStore_source_beyond (.inl ha), fun h => nomatch h⟩)
  · rcases memRead_cases b s with ⟨hb, h'⟩ | ⟨vb, hb, hvb, h'⟩ | ⟨hb, hvb, h'⟩
    · exact .inr (.inl ⟨_, computeAndStore_source_beyond (.inr ⟨hb, va, hva⟩), fun h => nomatch h⟩)
    · have key := computeAndStore_sources (alu := alu) (d := d) ha hb hva hvb
      cases hf : s.params.fits (alu va vb) with
      | false => exact .inr (.inl ⟨.overflow, by rw [key, if_pos hf], fun _ => ⟨_, hf⟩⟩)
      | true =>
        by_cases hd : s.len ≤ d
        · exact .inr (.inl ⟨.boundary, by rw [key, if_neg (by simp [hf]), if_pos hd], fun h => nomatch h⟩)
        · exact .inl ⟨va, vb, ha, hb, by omega, hva, hvb, hf, by rw [key, if_neg (by simp [hf]), if_neg hd]⟩
    · exact .inr (.inr ⟨.inr ⟨hb, hvb⟩, by simp [computeAndStore, sourceValues, sourceValue, h, h']⟩)
  · exact .inr (.inr ⟨.inl ⟨ha, hva⟩, by simp [computeAndStore, sourceValues, sourceValue, h]⟩)

/-! ## The fetch -/

/-- Everything the load of one latch can come to. -/
theorem latchCell_cases (a : Nat) (load : Latches → Nat → Latches) (s : State) :
    (s.len ≤ a ∧ latchCell a load s = .raised .boundary s) ∨
    (∃ v, a < s.len ∧ s.mem.read a = some v ∧ latchCell a load s = .ok v (s.setIr (load s.ir v))) ∨
    (a < s.len ∧ s.mem.read a = none ∧ latchCell a load s = .unwritten) := by
  rcases memRead_cases a s with ⟨h, e⟩ | ⟨v, h, hv, e⟩ | ⟨h, hv, e⟩
  · exact .inl ⟨h, by rw [latchCell, e]; rfl⟩
  · exact .inr (.inl ⟨v, h, hv, by rw [latchCell, e]; rfl⟩)
  · exact .inr (.inr ⟨h, hv, by rw [latchCell, e]; rfl⟩)

/-- A cell of the working memory can be the source of a latch. -/
def Latches.FromCells (s : State) (l : Latches) : Prop :=
  (l.op = s.ir.op ∨ ∃ x, s.mem.read x = some l.op) ∧ (l.a = s.ir.a ∨ ∃ x, s.mem.read x = some l.a) ∧
  (l.b = s.ir.b ∨ ∃ x, s.mem.read x = some l.b) ∧ (l.d = s.ir.d ∨ ∃ x, s.mem.read x = some l.d)

/-- Everything the operand cells can come to: they change the latches only. -/
theorem latchOperands_cases (s : State) :
    (∃ a b d, s.pc + 3 < s.len ∧ s.mem.read (s.pc + 1) = some a ∧ s.mem.read (s.pc + 2) = some b ∧
      s.mem.read (s.pc + 3) = some d ∧
      latchOperands s = .ok (a, b, d) (s.setIr { op := s.ir.op, a := a, b := b, d := d })) ∨
    (∃ l, s.len ≤ s.pc + 3 ∧ latchOperands s = .raised .boundary (s.setIr l) ∧ l.FromCells s) ∨
    ((∃ a, a < s.len ∧ s.mem.read a = none) ∧ latchOperands s = .unwritten) := by
  rw [latchOperands]
  rcases latchCell_cases (s.pc + 1) Latches.loadA s with ⟨h1, e⟩ | ⟨a, h1, ha, e⟩ | ⟨h1, ha, e⟩ <;> rw [e]
  · exact .inr (.inl ⟨s.ir, by omega, rfl, .inl rfl, .inl rfl, .inl rfl, .inl rfl⟩)
  · rw [Access.ok_andThen]
    rcases latchCell_cases (s.pc + 2) Latches.loadB (s.setIr (s.ir.loadA a)) with
      ⟨h2, e⟩ | ⟨b, h2, hb, e⟩ | ⟨h2, hb, e⟩ <;> rw [e]
    · exact .inr (.inl ⟨s.ir.loadA a, by simp at h2; omega, rfl, .inl rfl, .inr ⟨_, ha⟩, .inl rfl, .inl rfl⟩)
    · rw [Access.ok_andThen]
      rcases latchCell_cases (s.pc + 3) Latches.loadD (s.setIr ((s.ir.loadA a).loadB b)) with
        ⟨h3, e⟩ | ⟨d, h3, hd, e⟩ | ⟨h3, hd, e⟩
      · refine .inr (.inl ⟨(s.ir.loadA a).loadB b, by simpa using h3, ?_, .inl rfl, .inr ⟨_, ha⟩, .inr ⟨_, hb⟩, .inl rfl⟩)
        exact congrArg (fun x => Access.andThen x _) e
      · exact .inl ⟨a, b, d, by simpa using h3, ha, hb, hd, congrArg (fun x => Access.andThen x _) e⟩
      · exact .inr (.inr ⟨⟨_, h3, hd⟩, congrArg (fun x => Access.andThen x _) e⟩)
    · exact .inr (.inr ⟨⟨_, h2, hb⟩, rfl⟩)
  · exact .inr (.inr ⟨⟨_, h1, ha⟩, rfl⟩)

/-- The opcode map, said as cases. -/
theorem opcodeKind_cases (op : Nat) :
    (op = 1 ∧ opcodeKind op = .add) ∨ (op = 2 ∧ opcodeKind op = .mul) ∨ (op = 99 ∧ opcodeKind op = .halt) ∨
    ((op ≠ 1 ∧ op ≠ 2 ∧ op ≠ 99) ∧ opcodeKind op = .unrecognized) := by
  by_cases h1 : op = 1
  · exact .inl ⟨h1, by rw [h1]; rfl⟩
  · by_cases h2 : op = 2
    · exact .inr (.inl ⟨h2, by rw [h2]; rfl⟩)
    · by_cases h3 : op = 99
      · exact .inr (.inr (.inl ⟨h3, by rw [h3]; rfl⟩))
      · exact .inr (.inr (.inr ⟨⟨h1, h2, h3⟩, by rw [opcodeKind, if_neg h1, if_neg h2, if_neg h3]⟩))

/-- The cells of `i` stand at the cursor, below `LEN`. -/
def State.holdsAtCursor (s : State) (i : Instr) : Prop :=
  ∀ k c, (encode i)[k]? = some c → s.pc + k < s.len ∧ s.mem.read (s.pc + k) = some c

theorem holdsAtCursor_quad {s : State} {op a b d : Nat} (h0 : s.mem.read s.pc = some op) (h3 : s.pc + 3 < s.len)
    (ha : s.mem.read (s.pc + 1) = some a) (hb : s.mem.read (s.pc + 2) = some b) (hd : s.mem.read (s.pc + 3) = some d)
    {i : Instr} (hi : encode i = [op, a, b, d]) : s.holdsAtCursor i := by
  intro k c hk
  rw [hi] at hk
  match k with
  | 0 => exact ⟨by omega, by simp at hk; subst hk; exact h0⟩
  | 1 => exact ⟨by omega, by simp at hk; subst hk; exact ha⟩
  | 2 => exact ⟨by omega, by simp at hk; subst hk; exact hb⟩
  | 3 => exact ⟨by omega, by simp at hk; subst hk; exact hd⟩
  | k + 4 => simp at hk

theorem latchCell_ok {a v : Nat} {load : Latches → Nat → Latches} {s : State} (h : a < s.len)
    (hv : s.mem.read a = some v) : latchCell a load s = .ok v (s.setIr (load s.ir v)) := by
  rw [latchCell, memRead_ok h hv]; rfl

theorem latchOperands_ok {s : State} {a b d : Nat} (h3 : s.pc + 3 < s.len) (ha : s.mem.read (s.pc + 1) = some a)
    (hb : s.mem.read (s.pc + 2) = some b) (hd : s.mem.read (s.pc + 3) = some d) :
    latchOperands s = .ok (a, b, d) (s.setIr { op := s.ir.op, a := a, b := b, d := d }) := by
  rw [latchOperands, latchCell_ok (by omega) ha, Access.ok_andThen,
    latchCell_ok (s := s.setIr (s.ir.loadA a)) (by simpa using (by omega : s.pc + 2 < s.len)) hb]
  rw [Access.ok_andThen]
  have e := latchCell_ok (s := s.setIr ((s.ir.loadA a).loadB b)) (load := Latches.loadD) (a := s.pc + 3)
    (by simpa using h3) hd
  exact congrArg (fun x => Access.andThen x fun d s3 => Access.ok (a, b, d) s3) e

/-- The fetch of an instruction whose cells stand at the cursor. -/
theorem fetch_of_holdsAtCursor {s : State} {i : Instr} (h : s.holdsAtCursor i) :
    fetch s = .ok i (s.setIr (s.ir.load i)) := by
  have quad : ∀ {op a b d : Nat}, encode i = [op, a, b, d] →
      fetch s = Access.andThen (fetchRest op (s.setIr (s.ir.loadOp op))) (fun i t => .ok i t) ∧
      latchOperands (s.setIr (s.ir.loadOp op)) =
        .ok (a, b, d) (s.setIr { op := op, a := a, b := b, d := d }) := by
    intro op a b d hi
    have hk : ∀ k c, [op, a, b, d][k]? = some c → s.pc + k < s.len ∧ s.mem.read (s.pc + k) = some c := hi ▸ h
    constructor
    · rw [fetch, latchCell_ok (show s.pc < s.len from (hk 0 op rfl).1) (hk 0 op rfl).2, Access.ok_andThen]
      cases fetchRest op (s.setIr (s.ir.loadOp op)) <;> rfl
    · exact latchOperands_ok (hk 3 d rfl).1 (hk 1 a rfl).2 (hk 2 b rfl).2 (hk 3 d rfl).2
  cases i with
  | add a b d =>
    obtain ⟨e1, e2⟩ := quad (op := 1) rfl
    rw [e1]
    show Access.andThen (Access.andThen (latchOperands _) _) _ = _
    rw [e2]; rfl
  | mul a b d =>
    obtain ⟨e1, e2⟩ := quad (op := 2) rfl
    rw [e1]
    show Access.andThen (Access.andThen (latchOperands _) _) _ = _
    rw [e2]; rfl
  | halt =>
    rw [fetch, latchCell_ok (show s.pc < s.len from (h 0 99 rfl).1) (h 0 99 rfl).2]
    rfl

/-- An engine step whose instruction stands at the cursor runs it. -/
theorem engineStepOf_holdsAtCursor {s : State} {i : Instr} (h : s.holdsAtCursor i) :
    runFetched (fetch s) = exec i (s.setIr (s.ir.load i)) := by
  rw [fetch_of_holdsAtCursor h]; rfl

/-- The cells of the window are cells below `LEN`, in their places. -/
theorem cellsFrom_prefix {s : State} (n a : Nat) {l x : List Nat} (h : cellsFrom s a n = l ++ x) (k c : Nat)
    (hk : l[k]? = some c) : a + k < s.len ∧ s.mem.read (a + k) = some c := by
  induction n generalizing a l k with
  | zero => simp [cellsFrom] at h; simp [h] at hk
  | succ n ih =>
    cases l with
    | nil => simp at hk
    | cons v l =>
      rw [cellsFrom] at h
      split at h
      · simp at h
      · split at h
        · simp only [List.cons_append, List.cons.injEq] at h
          cases k with
          | zero =>
            simp only [List.getElem?_cons_zero, Option.some.injEq] at hk
            subst hk
            exact ⟨by omega, by rw [← h.1]; assumption⟩
          | succ k =>
            rw [show a + (k + 1) = a + 1 + k by omega]
            exact ih (a + 1) h.2 k (by simpa using hk)
        · simp at h

/-- Everything a fetch can come to: an instruction whose cells stand at the cursor, a fault, or a cell without a value;
it changes the latches only. -/
theorem fetch_cases (s : State) :
    (∃ i, fetch s = .ok i (s.setIr (s.ir.load i)) ∧ s.pc < s.len ∧ s.holdsAtCursor i) ∨
    (∃ k l, fetch s = .raised k (s.setIr l) ∧ l.FromCells s ∧ k ≠ .overflow) ∨
    ((∃ a, a < s.len ∧ s.mem.read a = none) ∧ fetch s = .unwritten) := by
  rw [fetch]
  rcases latchCell_cases s.pc Latches.loadOp s with ⟨h0, e⟩ | ⟨op, h0, hop, e⟩ | ⟨h0, hop, e⟩ <;> rw [e]
  · exact .inr (.inl ⟨_, s.ir, rfl, ⟨.inl rfl, .inl rfl, .inl rfl, .inl rfl⟩, FaultKind.noConfusion⟩)
  · rw [Access.ok_andThen]
    have hops := latchOperands_cases (s.setIr (s.ir.loadOp op))
    rcases opcodeKind_cases op with ⟨rfl, hk⟩ | ⟨rfl, hk⟩ | ⟨rfl, hk⟩ | ⟨hne, hk⟩
    · rw [show fetchRest 1 (s.setIr (s.ir.loadOp 1)) = Access.andThen (latchOperands (s.setIr (s.ir.loadOp 1)))
        (fun v s1 => decodeLatched [1, v.1, v.2.1, v.2.2] s1) from rfl]
      rcases hops with ⟨a, b, d, h3, ha, hb, hd, e⟩ | ⟨l, h3, e, hl⟩ | ⟨hu, e⟩ <;> rw [e]
      · exact .inl ⟨.add a b d, rfl, h0, holdsAtCursor_quad hop h3 ha hb hd rfl⟩
      · refine .inr (.inl ⟨_, l, rfl, ⟨.inr ?_, hl.2⟩, FaultKind.noConfusion⟩)
        rcases hl.1 with h | h
        · exact ⟨_, by rw [h]; exact hop⟩
        · exact h
      · exact .inr (.inr ⟨hu, rfl⟩)
    · rw [show fetchRest 2 (s.setIr (s.ir.loadOp 2)) = Access.andThen (latchOperands (s.setIr (s.ir.loadOp 2)))
        (fun v s1 => decodeLatched [2, v.1, v.2.1, v.2.2] s1) from rfl]
      rcases hops with ⟨a, b, d, h3, ha, hb, hd, e⟩ | ⟨l, h3, e, hl⟩ | ⟨hu, e⟩ <;> rw [e]
      · exact .inl ⟨.mul a b d, rfl, h0, holdsAtCursor_quad hop h3 ha hb hd rfl⟩
      · refine .inr (.inl ⟨_, l, rfl, ⟨.inr ?_, hl.2⟩, FaultKind.noConfusion⟩)
        rcases hl.1 with h | h
        · exact ⟨_, by rw [h]; exact hop⟩
        · exact h
      · exact .inr (.inr ⟨hu, rfl⟩)
    · refine .inl ⟨.halt, rfl, h0, ?_⟩
      intro k c hk
      match k with
      | 0 => exact ⟨h0, by simp [encode] at hk; subst hk; exact hop⟩
      | k + 1 => simp [encode] at hk
    · refine .inr (.inl ⟨.processing, s.ir.loadOp op, ?_, ⟨.inr ⟨_, hop⟩, .inl rfl, .inl rfl, .inl rfl⟩, FaultKind.noConfusion⟩)
      simp [fetchRest, operandCells, decodeLatched, decode, hk, decodeFault]
  · exact .inr (.inr ⟨⟨_, h0, hop⟩, rfl⟩)

end Sys2Proof.Machine
end

