-- ==== Sys2Proof/Laws/PerInstr.lean ====
section
/-!
SUPPORT. Sys2Proof/Laws/PerInstr.lean: statements made per instruction (LAWS.json). The family EncodeLength says that the
decoder tells the length of an instruction from its opcode cell alone (spec 30_encoding.md R59).
-/

/-- The encoding of `i` begins with its opcode cell, which tells how many cells follow. -/
def Sys2Proof.Laws.EncodeLength.Statement (i : Sys2Proof.Instr) : Prop :=
  ∃ op rest, Sys2Proof.encode i = op :: rest ∧ rest.length = Sys2Proof.operandCells op

theorem Sys2Proof.Laws.EncodeLength.add (a b dest : Nat) :
    Sys2Proof.Laws.EncodeLength.Statement (.add a b dest) := ⟨1, [a, b, dest], rfl, rfl⟩

theorem Sys2Proof.Laws.EncodeLength.mul (a b dest : Nat) :
    Sys2Proof.Laws.EncodeLength.Statement (.mul a b dest) := ⟨2, [a, b, dest], rfl, rfl⟩

theorem Sys2Proof.Laws.EncodeLength.halt : Sys2Proof.Laws.EncodeLength.Statement .halt := ⟨99, [], rfl, rfl⟩
end

