-- ==== Sys2Proof/Laws/Step.lean ====
section
/-!
SUPPORT. Sys2Proof/Laws/Step.lean: what `exec`, an engine step and the sequencer's moves can do, said once each.
-/
namespace Sys2Proof.Machine

/-- An instruction that computes: its ALU function and its three fields. -/
def Instr.computes (i : Instr) (alu : Nat → Nat → Nat) (a b d : Nat) : Prop :=
  (i = .add a b d ∧ alu = aluAdd) ∨ (i = .mul a b d ∧ alu = aluMul)

theorem exec_computes {i : Instr} {alu : Nat → Nat → Nat} {a b d : Nat} (h : Instr.computes i alu a b d) (s : State) :
    exec i s = conclude (computeAndStore alu a b d s) := by
  rcases h with ⟨rfl, rfl⟩ | ⟨rfl, rfl⟩ <;> rfl

theorem computes_of_ne_halt {i : Instr} (h : i ≠ .halt) : ∃ alu a b d, Instr.computes i alu a b d := by
  cases i with
  | add a b d => exact ⟨aluAdd, a, b, d, .inl ⟨rfl, rfl⟩⟩
  | mul a b d => exact ⟨aluMul, a, b, d, .inr ⟨rfl, rfl⟩⟩
  | halt => exact absurd rfl h

/-- Everything `exec` can come to. -/
theorem exec_cases (i : Instr) (s : State) :
    (∃ alu a b d va vb, Instr.computes i alu a b d ∧ a < s.len ∧ b < s.len ∧ d < s.len ∧
      s.mem.read a = some va ∧ s.mem.read b = some vb ∧ s.params.fits (alu va vb) = true ∧
      exec i s = .next (advancePc (s.setMem (s.mem.write d (alu va vb))))) ∨
    (i = .halt ∧ exec i s = .next (s.setEng .halted)) ∨
    (i ≠ .halt ∧ ∃ k, exec i s = .next (takeFault k s) ∧ (k = .overflow → ∃ r, s.params.fits r = false)) ∨
    ((∃ a, a < s.len ∧ s.mem.read a = none) ∧ exec i s = .fault .unwrittenCell) := by
  by_cases hi : i = .halt
  · exact .inr (.inl ⟨hi, by rw [hi]; rfl⟩)
  · obtain ⟨alu, a, b, d, h⟩ := computes_of_ne_halt hi
    rw [exec_computes h]
    rcases computeAndStore_cases alu a b d s with ⟨va, vb, ha, hb, hd, hva, hvb, hf, e⟩ | ⟨k, e, hk⟩ | ⟨hu, e⟩ <;> rw [e]
    · exact .inl ⟨alu, a, b, d, va, vb, h, ha, hb, hd, hva, hvb, hf, rfl⟩
    · exact .inr (.inr (.inl ⟨hi, k, rfl, hk⟩))
    · refine .inr (.inr (.inr ⟨?_, rfl⟩))
      rcases hu with hu | hu <;> exact ⟨_, hu⟩

/-- Everything one engine step can come to. -/
theorem engineStep_cases (s : State) :
    (∃ i alu a b d va vb, Instr.computes i alu a b d ∧ s.holdsAtCursor i ∧ a < s.len ∧ b < s.len ∧ d < s.len ∧
      s.mem.read a = some va ∧ s.mem.read b = some vb ∧ s.params.fits (alu va vb) = true ∧
      engineStep s = .next (advancePc ((s.setIr (s.ir.load i)).setMem (s.mem.write d (alu va vb))))) ∨
    (s.holdsAtCursor .halt ∧ engineStep s = .next ((s.setIr (s.ir.load .halt)).setEng .halted)) ∨
    (∃ k l, engineStep s = .next (takeFault k (s.setIr l)) ∧ l.FromCells s ∧
      (k = .overflow → ∃ r, s.params.fits r = false)) ∨
    ((∃ a, a < s.len ∧ s.mem.read a = none) ∧ engineStep s = .fault .unwrittenCell) := by
  rcases fetch_cases s with ⟨i, e, h0, hc⟩ | ⟨k, l, e, hl⟩ | ⟨hu, e⟩
  · have es : engineStep s = exec i (s.setIr (s.ir.load i)) := by rw [engineStep, e]; rfl
    rcases exec_cases i (s.setIr (s.ir.load i)) with
      ⟨alu, a, b, d, va, vb, hi, ha, hb, hd, hva, hvb, hf, e⟩ | ⟨rfl, e⟩ | ⟨hi, k, e, hk⟩ | ⟨hu, e⟩
    · exact .inl ⟨i, alu, a, b, d, va, vb, hi, hc, ha, hb, hd, hva, hvb, hf, by rw [es, e]; rfl⟩
    · exact .inr (.inl ⟨hc, by rw [es, e]⟩)
    · refine .inr (.inr (.inl ⟨k, _, by rw [es, e], ?_, hk⟩))
      cases i with
      | add a b d => exact ⟨.inr ⟨_, (hc 0 _ rfl).2⟩, .inr ⟨_, (hc 1 _ rfl).2⟩, .inr ⟨_, (hc 2 _ rfl).2⟩, .inr ⟨_, (hc 3 _ rfl).2⟩⟩
      | mul a b d => exact ⟨.inr ⟨_, (hc 0 _ rfl).2⟩, .inr ⟨_, (hc 1 _ rfl).2⟩, .inr ⟨_, (hc 2 _ rfl).2⟩, .inr ⟨_, (hc 3 _ rfl).2⟩⟩
      | halt => exact absurd rfl hi
    · exact .inr (.inr (.inr ⟨hu, by rw [es, e]⟩))
  · exact .inr (.inr (.inl ⟨k, l, by rw [engineStep, e]; rfl, hl.1, fun h => absurd h hl.2⟩))
  · exact .inr (.inr (.inr ⟨hu, by rw [engineStep, e]; rfl⟩))

/-- A cursor whose instruction computes has all four cells below `LEN`. -/
theorem holdsAtCursor_computes {s : State} {i : Instr} {alu : Nat → Nat → Nat} {a b d : Nat}
    (hi : Instr.computes i alu a b d) (h : s.holdsAtCursor i) : s.pc + 3 < s.len := by
  rcases hi with ⟨rfl, -⟩ | ⟨rfl, -⟩ <;> exact (h 3 d rfl).1

/-- The latches after the fetch of an instruction hold its cells. -/
theorem Latches.fromCells_load {s : State} {i : Instr} (h : s.holdsAtCursor i) : (s.ir.load i).FromCells s := by
  cases i with
  | add a b d => exact ⟨.inr ⟨_, (h 0 _ rfl).2⟩, .inr ⟨_, (h 1 _ rfl).2⟩, .inr ⟨_, (h 2 _ rfl).2⟩, .inr ⟨_, (h 3 _ rfl).2⟩⟩
  | mul a b d => exact ⟨.inr ⟨_, (h 0 _ rfl).2⟩, .inr ⟨_, (h 1 _ rfl).2⟩, .inr ⟨_, (h 2 _ rfl).2⟩, .inr ⟨_, (h 3 _ rfl).2⟩⟩
  | halt => exact ⟨.inr ⟨_, (h 0 _ rfl).2⟩, .inl rfl, .inl rfl, .inl rfl⟩

/-- Everything the sequencer's move after a HALT can come to (42 R89, R95, R96). -/
theorem endOfRun_cases (s : State) :
    (s.status.op = .run ∧ endOfRun s = .next (s.setStatus (Status.completed .run false))) ∨
    (s.status.op = .exec ∧ ∃ v, s.mem.read 0 = some v ∧
      endOfRun s = .next ((s.setOut v).setStatus (Status.completed .exec false))) ∨
    (s.status.op = .search ∧ ∃ v, s.mem.read 0 = some v ∧ endOfRun s = .next (judge (s.setOut v))) ∨
    (s.status.op = .none ∧ endOfRun s = .fault .noMove) ∨
    (s.mem.read 0 = none ∧ endOfRun s = .fault .unwrittenCell) := by
  cases hop : s.status.op with
  | none => exact .inr (.inr (.inr (.inl ⟨rfl, by simp only [endOfRun, hop]⟩)))
  | run => exact .inl ⟨rfl, by simp only [endOfRun, hop]⟩
  | exec =>
    cases hv : s.mem.read 0 with
    | none => exact .inr (.inr (.inr (.inr ⟨rfl, by simp only [endOfRun, hop, collectOut, hv]⟩)))
    | some v => exact .inr (.inl ⟨rfl, v, rfl, by simp only [endOfRun, hop, collectOut, hv]⟩)
  | search =>
    cases hv : s.mem.read 0 with
    | none => exact .inr (.inr (.inr (.inr ⟨rfl, by simp only [endOfRun, hop, collectOut, hv]⟩)))
    | some v => exact .inr (.inr (.inl ⟨rfl, v, rfl, by simp only [endOfRun, hop, collectOut, hv]⟩))

/-- Everything the judgement of an iteration can come to (42 R97 to R99). -/
theorem judge_cases (s : State) :
    (s.out = s.target ∧
      judge s = matched s) ∨
    (s.out ≠ s.target ∧ s.verb + 1 < 99 ∧
      judge s = beginIteration s.noun (s.verb + 1) (setPair s.noun (s.verb + 1) s)) ∨
    (s.out ≠ s.target ∧ 99 ≤ s.verb + 1 ∧ s.noun + 1 < 99 ∧
      judge s = beginIteration (s.noun + 1) 0 (setPair (s.noun + 1) 0 s)) ∨
    (s.out ≠ s.target ∧ 99 ≤ s.verb + 1 ∧ 99 ≤ s.noun + 1 ∧
      judge s = s.setStatus (Status.completed .search false)) := by
  by_cases ho : s.out = s.target
  · exact .inl ⟨ho, if_pos ho⟩
  · by_cases hv : s.verb + 1 < 99
    · exact .inr (.inl ⟨ho, hv, by rw [judge, if_neg ho, nextIteration, if_pos hv]⟩)
    · by_cases hn : s.noun + 1 < 99
      · exact .inr (.inr (.inl ⟨ho, by omega, hn, by rw [judge, if_neg ho, nextIteration, if_neg hv, if_pos hn]⟩))
      · exact .inr (.inr (.inr ⟨ho, by omega, by omega, by
          rw [judge, if_neg ho, nextIteration, if_neg hv, if_neg hn]⟩))

/-- Everything the taking up of a command can come to (42 R87, R88, log 9). -/
theorem accept_cases (c : Command) (s : State) :
    (∃ image, c = .load image ∧ loadAccepted s.params image = true ∧ accept c s = .next (load image s)) ∨
    (∃ image, c = .load image ∧ loadAccepted s.params image = false ∧ accept c s = .next s) ∨
    (c = .run ∧ accept c s = .next (beginRun s)) ∨
    (∃ n v, c = .exec n v ∧ s.params.fits n = true ∧ s.params.fits v = true ∧ accept c s = .next (beginExec n v s)) ∨
    (∃ n v, c = .exec n v ∧ ¬(s.params.fits n = true ∧ s.params.fits v = true) ∧
      accept c s = .refused .argumentTooWide) ∨
    (∃ t, c = .search t ∧ accept c s = .next (beginSearch t s)) := by
  cases c with
  | load image =>
    cases h : loadAccepted s.params image with
    | true => exact .inl ⟨image, rfl, h, by simp [accept, h]⟩
    | false => exact .inr (.inl ⟨image, rfl, h, by simp [accept, h]⟩)
  | run => exact .inr (.inr (.inl ⟨rfl, rfl⟩))
  | exec n v =>
    by_cases h : s.params.fits n = true ∧ s.params.fits v = true
    · exact .inr (.inr (.inr (.inl ⟨n, v, rfl, h.1, h.2, by simp [accept, h]⟩)))
    · exact .inr (.inr (.inr (.inr (.inl ⟨n, v, rfl, h, by simpa [accept] using h⟩))))
  | search t => exact .inr (.inr (.inr (.inr (.inr ⟨t, rfl, rfl⟩))))

/-- Everything the block can do by itself. -/
theorem advance_cases (s : State) :
    (s.status.state = .busy ∧ s.eng = .running ∧ advance s = engineStep s) ∨
    (s.status.state = .busy ∧ s.eng = .halted ∧ advance s = endOfRun s) ∨
    (s.status.state = .busy ∧ s.eng ≠ .running ∧ s.eng ≠ .halted ∧ advance s = .fault .noMove) ∨
    (s.status.state ≠ .busy ∧ advance s = .next s) := by
  cases hb : s.status.state <;> cases he : s.eng <;> simp [advance, hb, he]

/-- Everything a step can come to: the host's reset, a command taken up, or the block's own move. -/
theorem step_cases (s : State) :
    (∃ rest, s.host = .reset :: rest ∧ step s = .next (hardReset (s.setHost rest))) ∨
    (∃ c rest, s.host = .issue c :: rest ∧ s.status.state ≠ .busy ∧ step s = accept c (s.setHost rest)) ∨
    (s.host.head? ≠ some .reset ∧ ∃ h, step s = advance (s.setHost h)) := by
  cases hh : s.host with
  | nil => exact .inr (.inr ⟨by simp, s.host, by simp only [step, blockStep, hh]; rw [← hh]; rfl⟩)
  | cons m rest =>
    cases m with
    | quiet => exact .inr (.inr ⟨by simp, rest, by simp only [step, blockStep, hh]⟩)
    | reset => exact .inl ⟨rest, rfl, by simp only [step, blockStep, hh]⟩
    | issue c =>
      by_cases hb : s.status.state = .busy
      · exact .inr (.inr ⟨by simp, s.host, by simp only [step, blockStep, hh, if_pos hb]; rw [← hh]; rfl⟩)
      · exact .inr (.inl ⟨c, rest, rfl, hb, by simp only [step, blockStep, hh, if_neg hb]⟩)

/-! ## Sequences of commands -/

@[simp] theorem commandSeq_nil (s : State) : commandSeq [] s = .next s := rfl
@[simp] theorem commandSeq_cons (c : Command) (cs : List Command) (s : State) :
    commandSeq (c :: cs) s = onNext (command c s) (commandSeq cs) := rfl

/-- The host cannot tell a state from itself. -/
theorem SameReads.refl (s : State) : SameReads s s := ⟨rfl, rfl, fun _ => rfl, rfl, rfl, rfl⟩

end Sys2Proof.Machine
end

