-- ==== Sys2Proof/Tests/Slice0.lean ====
section
/-!
SUPPORT. Sys2Proof/Tests/Slice0.lean: the model's own tests (expected results from the spec's tables and vectors), and a
witness for each obligation with hypotheses: a concrete state and operands that meet them together.
-/
namespace Sys2Proof.Tests
open Sys2Proof.Machine

/-! ## Small states -/

/-- The next state, if there is one. -/
def next? (o : Host.Outcome State Fault Refusal) : Option State :=
  match o with
  | .next s => some s
  | .fault _ => none
  | .refused _ => none

/-- A block of 14-bit cells and 9 of them, the smallest width R5 admits. -/
def small : Params := { width := .bits 14, memCellsMax := 9 }

/-- A block with `cells` loaded, no command in progress. -/
def loaded (cells : List Nat) : State :=
  { State.reset with params := small, snap := Memory.ofCells 0 cells, mem := Memory.ofCells 0 cells, len := cells.length }

/-- The same block in the middle of the command `op`, the cursor at `pc`. -/
def running (op : Op) (pc : Nat) (cells : List Nat) : State :=
  { loaded cells with pc := pc, eng := .running, status := Status.inProgress op }

/-- The same block when the run of the command `op` has halted. -/
def halted (op : Op) (pc : Nat) (cells : List Nat) : State := { running op pc cells with eng := .halted }

/-- A host that issues `c` and then asserts RESET. -/
def issuing (c : Command) (s : State) : State := { s with host := [.issue c, .reset] }

/-! ## WellFormed: a cell of 64 bits holds no 2^64 (30 R52) -/

theorem test_wf_largest_fields :
    (Instr.add (2 ^ 64 - 1) 0 (2 ^ 64 - 1)).wellFormed Params.standard = true ∧
    (Instr.mul 0 (2 ^ 64 - 1) 0).wellFormed Params.standard = true ∧
    Instr.halt.wellFormed Params.standard = true := by decide
theorem test_wf_refuses_add_a : (Instr.add (2 ^ 64) 0 0).wellFormed Params.standard = false := by decide
theorem test_wf_refuses_add_b : (Instr.add 0 (2 ^ 64) 0).wellFormed Params.standard = false := by decide
theorem test_wf_refuses_add_dest : (Instr.add 0 0 (2 ^ 64)).wellFormed Params.standard = false := by decide
theorem test_wf_refuses_mul_a : (Instr.mul (2 ^ 64) 0 0).wellFormed Params.standard = false := by decide
theorem test_wf_refuses_mul_b : (Instr.mul 0 (2 ^ 64) 0).wellFormed Params.standard = false := by decide
theorem test_wf_refuses_mul_dest : (Instr.mul 0 0 (2 ^ 64)).wellFormed Params.standard = false := by decide
theorem test_wf_refuses_cell : (AsmLine.cell (2 ^ 64)).wellFormed Params.standard = false := by decide

/-! ## Decoding: words written out from 30 R52 to R57, cell k in bits 64k + 63 to 64k -/

/-- Cells 1, 9, 10, 3. -/
theorem test_decode_add : decodeTableWord 256
    0x0000000000000003000000000000000A00000000000000090000000000000001 = some (.add 9 10 3) := by decide
/-- Cells 2, 3, 11, 0. -/
theorem test_decode_mul : decodeTableWord 256
    0x0000000000000000000000000000000B00000000000000030000000000000002 = some (.mul 3 11 0) := by decide
/-- The one cell 99. -/
theorem test_decode_halt : decodeTableWord 64 0x0000000000000063 = some .halt := by decide
/-- Every bit of a field counts: cells 1, 2^64 - 1, 2^63, 2^64 - 2. -/
theorem test_decode_wide_fields : decodeTableWord 256
    0xFFFFFFFFFFFFFFFE8000000000000000FFFFFFFFFFFFFFFF0000000000000001 =
      some (.add (2 ^ 64 - 1) (2 ^ 63) (2 ^ 64 - 2)) := by decide
/-- The whole opcode cell is compared (R54): a 1, 2 or 99 with a high bit set is unrecognized. -/
theorem test_decode_high_bits : decodeTableWord 64 0x8000000000000001 = none ∧
    decodeTableWord 64 0x0000000100000002 = none ∧ decodeTableWord 64 0x0000000000000163 = none := by decide
/-- The examples of R57. -/
theorem test_decode_unrecognized :
    [0, 3, 98, 100, 101, 102, 199, 1001, 1002, 1101, 10099].all
      (fun op => decide (decode [op, 0, 0, 0] = .error .unrecognized)) = true := by decide
/-- R64: `[1,1,1,4,99,5,6,0,99]` as assembled, and cells 4 to 7 after its first instruction. -/
theorem test_assemble : assemble [.instr (.add 1 1 4), .instr .halt, .cell 5, .cell 6, .cell 0, .instr .halt] =
    [1, 1, 1, 4, 99, 5, 6, 0, 99] ∧ decode [2, 5, 6, 0, 99] = .instr (.mul 5 6 0) [99] := by decide
/-- The encoding of each instruction, cell by cell (R52, R53). -/
theorem test_encode : encode (.add 7 8 9) = [1, 7, 8, 9] ∧ encode (.mul 7 8 9) = [2, 7, 8, 9] ∧ encode .halt = [99] := by
  decide

/-! ## One step of each instruction -/

/-- The source's vector `[1,0,0,0,99]` (40 R66): cell 0 becomes 2 and the cursor 4. -/
theorem test_add_source_vector : (next? (step (running .run 0 [1, 0, 0, 0, 99]))).map (fun t => (t.mem.map (·.2), t.pc)) =
    some ([2, 0, 0, 0, 99], 4) := by decide
/-- 40 R66: `dest = a`: the old value is added; an ADD that swapped `b` and `dest` would put 10 in cell 5. -/
theorem test_add_dest_is_source : (next? (step (running .run 0 [1, 4, 5, 4, 5, 7]))).map (fun t => t.mem.map (·.2)) =
    some [1, 4, 5, 4, 12, 7] := by decide
/-- The source's vector `[2,4,4,5,99,0]` (40 R67): cell 5 becomes 9801. -/
theorem test_mul_source_vector : (next? (step (running .run 0 [2, 4, 4, 5, 99, 0]))).map (fun t => (t.mem.map (·.2), t.pc)) =
    some ([2, 4, 4, 5, 99, 9801], 4) := by decide
/-- 40 R69, R67: 128 * 128 = 2^14 does not fit 14 bits: OverflowFault, nothing stored, the cursor stays. -/
theorem test_mul_overflow : (next? (step (running .exec 0 [2, 4, 4, 0, 128]))).map
    (fun t => (t.mem.map (·.2), t.pc, t.eng, t.status.byte)) = some ([2, 4, 4, 0, 128], 0, .faulted, 0x2F) := by decide
/-- 41 R78, 90 C1: a 99 in the last cell halts; memory and the cursor stay. -/
theorem test_halt_last_cell : (next? (step (running .run 4 [1, 0, 0, 0, 99]))).map
    (fun t => (t.mem.map (·.2), t.pc, t.eng, t.status.state)) = some ([1, 0, 0, 0, 99], 4, .halted, .busy) := by decide
/-- 41 R79: an unrecognized opcode in the last cell is a ProcessingError, STATUS 0x17 after a RUN (10 R24). -/
theorem test_unrecognized_last_cell : (next? (step (running .run 0 [3]))).map
    (fun t => (t.pc, t.eng, t.status.byte)) = some (0, .faulted, 0x17) := by decide

/-- From reset, an instruction placed where the next step fetches: HALT, and ADD with operand cells of zeros. -/
theorem test_from_reset : (next? (step (State.reset.withFetchWord 64 99))).map (·.eng) = some .halted ∧
    (next? (step (State.reset.withFetchWord 64 1))).map (fun t => (t.mem.map (·.2), t.pc)) = some ([2, 0, 0, 0], 4) := by
  decide

/-! ## The sequencer -/

/-- 42 R95: `LOAD([1,0,0,0,99])`, `EXEC(0, 4)` gives 100. -/
theorem test_exec_example : execReport 0 4 (loaded [1, 0, 0, 0, 99]) = some (some 100, .none) := by decide
/-- 42 R100: for the same image pair (0, 5) reads past the end. -/
theorem test_exec_boundary : execReport 0 5 (loaded [1, 0, 0, 0, 99]) = some (none, .boundary) := by decide
/-- 42 R97: after pair (0, 98) comes (1, 0). -/
theorem test_next_pair : (next? (step { halted .search 0 [99, 0, 98] with target := 7, noun := 0, verb := 98 })).map
    (fun t => (t.noun, t.verb, t.mem.map (·.2), t.eng)) = some (1, 0, [99, 1, 0], .running) := by decide
/-- Memory keeps its canonical form: a rewritten cell stands once. -/
theorem test_memory_canonical : Memory.write (Memory.write (Memory.write [] 4 1) 2 7) 4 3 = [(2, 7), (4, 3)] := by decide

/-! ## States that meet the invariant -/

theorem loaded_inv : Inv (loaded [1, 0, 0, 0, 99]) := by constructor <;> decide
theorem running_inv : Inv (running .run 4 [1, 0, 0, 0, 99]) := by constructor <;> decide
theorem searching_inv :
    Inv { halted .search 0 [99, 98, 98] with target := 99, noun := 98, verb := 98, out := 7 } := by
  constructor <;> decide

/-! ## Witnesses -/

theorem witness_StepRunsDecodedInstruction :
    let s := running .run 0 [1, 4, 4, 0, 2]
    let t := { running .exec 4 [0, 0, 0, 0, 99] with host := [.quiet, .reset] }
    (s.status.state = .busy ∧ s.eng = .running ∧ s.host.head? ≠ some .reset ∧
      decode s.window = .instr (.add 4 4 0) []) ∧
    (t.status.state = .busy ∧ t.eng = .running ∧ t.host.head? ≠ some .reset ∧
      decode t.window = .instr .halt []) := by decide
theorem witness_UnrecognizedExactlyOtherOpcodes : decode [100] = .error .unrecognized ∧ decode [98, 1] = .error .unrecognized := by
  decide
theorem witness_TableWordRoundTrip_PlacedInstructionRunsNext :
    (Instr.add (2 ^ 64 - 1) 0 5).wellFormed Params.standard = true ∧
    (Instr.mul 1 (2 ^ 64 - 1) (2 ^ 64 - 1)).wellFormed Params.standard = true ∧
    Instr.halt.wellFormed Params.standard = true := by decide
theorem witness_MemReadIsChecked :
    let s := loaded [5, 6, 7]
    s.len ≤ 3 ∧ (2 < s.len ∧ s.mem.read 2 = some 7) ∧
    (2 < ({ s with mem := [] } : State).len ∧ ({ s with mem := [] } : State).mem.read 2 = none) := by decide
theorem witness_MemWriteIsChecked : let s := loaded [5, 6, 7]; s.len ≤ 3 ∧ 2 < s.len := by decide
theorem witness_RestoreCopiesSnapshot : let s := loaded [5, 6, 7]; 2 < s.len ∧ s.len ≤ 3 := by decide
theorem witness_InjectWritesNounAndVerb :
    (loaded [5]).len < 2 ∧ (loaded [5, 6]).len = 2 ∧ 2 < (loaded [5, 6, 7]).len := by decide
/-- The sum is 2^14 - 1, the largest that is stored; the operands name the last cells. -/
theorem witness_AddStoresSum :
    let s := running .run 0 [1, 4, 5, 5, 16382, 1]
    4 < s.len ∧ 5 < s.len ∧ s.mem.read 4 = some 16382 ∧ s.mem.read 5 = some 1 ∧ s.params.fits (16382 + 1) = true := by
  decide
/-- 127 * 129 = 2^14 - 1. -/
theorem witness_MulStoresProduct :
    let s := running .run 0 [2, 4, 5, 5, 127, 129]
    4 < s.len ∧ 5 < s.len ∧ s.mem.read 4 = some 127 ∧ s.mem.read 5 = some 129 ∧ s.params.fits (127 * 129) = true := by
  decide

/-- The hypotheses of the two whole rules, for opcode `op`. -/
abbrev WholeRule (op : Nat) (s : State) : Prop := Memory.total s.len s.mem ∧ s.pc < s.len ∧ s.cell s.pc = op

/-- One state for each clause: cells missing, a beyond, b beyond, overflow, destination beyond, completion. -/
theorem witness_AddWholeRule :
    (WholeRule 1 (running .run 0 [1, 0, 0]) ∧ WholeRule 1 (running .run 0 [1, 4, 0, 0]) ∧
      WholeRule 1 (running .run 0 [1, 0, 4, 0])) ∧
    (WholeRule 1 (running .run 0 [1, 4, 0, 9, 16383]) ∧ small.fits (16383 + 1) = false) ∧
    (WholeRule 1 (running .run 0 [1, 4, 0, 5, 16382]) ∧ small.fits (16382 + 1) = true) ∧
    WholeRule 1 (running .run 0 [1, 4, 0, 4, 16382]) := by decide
theorem witness_MulWholeRule :
    (WholeRule 2 (running .run 0 [2, 0, 0]) ∧ WholeRule 2 (running .run 0 [2, 4, 0, 0]) ∧
      WholeRule 2 (running .run 0 [2, 0, 4, 0])) ∧
    (WholeRule 2 (running .run 0 [2, 4, 4, 9, 128]) ∧ small.fits (128 * 128) = false) ∧
    (WholeRule 2 (running .run 0 [2, 4, 5, 6, 127, 129]) ∧ small.fits (127 * 129) = true) ∧
    WholeRule 2 (running .run 0 [2, 4, 5, 5, 127, 129]) := by decide
theorem witness_HaltReadsOneCell : let s := running .run 0 [99]; s.pc < s.len ∧ s.mem.read s.pc = some 99 := by decide
theorem witness_AluGivesExactResultOrOverflows :
    (loaded []).params.width = .bits 14 ∧ (16383 < 2 ^ 14 ∧ 0 < 2 ^ 14 ∧ 1 < 2 ^ 14) := by decide
theorem witness_SwappedSourcesAgree :
    let s := running .run 0 [1, 4, 5, 9, 16383, 1]
    4 < s.len ∧ 5 < s.len ∧ s.mem.read 4 = some 16383 ∧ s.mem.read 5 = some 1 := by decide
theorem witness_StoreIsSeenByNextFetch :
    let s := running .run 0 [1, 1, 1, 4, 99]
    1 < s.len ∧ s.pc + 4 < s.len ∧ s.mem.read 1 = some 1 ∧ s.params.fits (1 + 1) = true ∧
    s.params.fits (1 * 1) = true := by decide
theorem witness_UnrecognizedRaisesProcessingError :
    let s := running .run 0 [0]; let t := running .run 0 [100, 4, 4, 4]
    (s.pc < s.len ∧ s.mem.read s.pc = some 0) ∧ (t.pc < t.len ∧ t.mem.read t.pc = some 100) := by decide
theorem witness_FetchPastTheEndFaults : (running .run 4 [1, 0, 0, 0]).len ≤ (running .run 4 [1, 0, 0, 0]).pc ∧
    (running .run 0 []).len ≤ (running .run 0 []).pc := by decide
theorem witness_FaultPriorityTable :
    let s := running .run 0 [1, 4, 0, 9, 16383]; let t := running .run 0 [99]
    (Memory.total s.len s.mem ∧ s.eng = .running ∧ faultTable s = some .overflow) ∧
    (Memory.total t.len t.mem ∧ t.eng = .running ∧ faultTable t = none) := by decide
theorem witness_NoOverflowWhenUnbounded :
    let s := { running .run 0 [2, 4, 4, 0, 10 ^ 30] with params := { width := .unbounded, memCellsMax := 9 } }
    s.params.width = .unbounded ∧ s.status.cause ≠ .overflow ∧ ∃ t, step s = .next t :=
  ⟨rfl, by decide, _, rfl⟩
theorem witness_BlockWaitsForTheHost :
    let s := takeFault .boundary (running .run 0 [])
    (State.reset.status.state ≠ .busy ∧ State.reset.host = []) ∧ (s.status.state ≠ .busy ∧ s.host = []) := by decide
theorem witness_AnswerRecoversThePair : (SearchResult.ofPair 98 98).resVerb.toNat < 100 ∧
    (SearchResult.ofPair 98 98).answer = 9898 := by decide
/-- Each read at a state that allows it. -/
theorem witness_HostReadsFollowVisibility :
    readMem 2 { loaded [5, 6, 7] with status := Status.completed .run false } = some 7 ∧
    readOut { loaded [] with out := 3, status := Status.completed .exec false } = some 3 ∧
    readAnswer { loaded [] with result := SearchResult.ofPair 3 12, status := Status.completed .search true } = some 312 := by
  decide
theorem witness_ResetActsInAnyState :
    ({ running .search 4 [1, 0, 0, 0, 1] with host := [.reset, .quiet] } : State).host = .reset :: [.quiet] := by decide
theorem witness_CommandsWaitForNotBusy :
    let s := issuing .run (takeFault .overflow (running .run 0 [])); let t := issuing .run (running .run 0 [])
    (s.host = .issue .run :: [.reset] ∧ s.status.state ≠ .busy) ∧
    (t.host = .issue .run :: [.reset] ∧ t.status.state = .busy) := by decide
/-- A full memory, and a cell at 2^14 - 1. -/
theorem witness_LoadWritesSnapshotAndLength :
    let image := [1, 2, 3, 4, 5, 6, 7, 8, 16383]; let s := issuing (.load image) (loaded [5])
    s.status.state ≠ .busy ∧ s.host = .issue (.load image) :: [.reset] ∧ image.length ≤ s.params.memCellsMax ∧
    ∀ v ∈ image, s.params.fits v = true := by decide
/-- One cell too many; one value too large. -/
theorem witness_RefusedLoadChangesNothing :
    let image := [0, 0, 0, 0, 0, 0, 0, 0, 0, 0]; let s := issuing (.load image) (loaded [5])
    let t := issuing (.load [16384]) (loaded [5])
    (s.status.state ≠ .busy ∧ s.host = .issue (.load image) :: [.reset] ∧ s.params.memCellsMax < image.length) ∧
    (t.status.state ≠ .busy ∧ t.host = .issue (.load [16384]) :: [.reset] ∧
      ∃ v ∈ [16384], t.params.fits v = false) := by decide
theorem witness_RunBeginsWithRestore :
    let s := issuing .run (loaded [5]); s.status.state ≠ .busy ∧ s.host = .issue .run :: [.reset] := by decide
theorem witness_ExecBeginsWithInjection :
    let s := issuing (.exec 16383 0) (loaded [5, 6]); let t := issuing (.exec 16383 0) (loaded [5, 6, 7])
    (s.status.state ≠ .busy ∧ s.host = .issue (.exec 16383 0) :: [.reset] ∧ s.params.fits 16383 = true ∧
      s.params.fits 0 = true ∧ s.len < 3) ∧
    (t.status.state ≠ .busy ∧ t.host = .issue (.exec 16383 0) :: [.reset] ∧ t.params.fits 16383 = true ∧
      t.params.fits 0 = true ∧ 3 ≤ t.len) := by decide
theorem witness_UnrepresentableExecIsRefused :
    let s := issuing (.exec 16384 0) (loaded [5]); let t := issuing (.exec 0 16384) (loaded [5])
    (s.status.state ≠ .busy ∧ s.host = .issue (.exec 16384 0) :: [.reset] ∧ s.params.fits 16384 = false) ∧
    (t.status.state ≠ .busy ∧ t.host = .issue (.exec 0 16384) :: [.reset] ∧ t.params.fits 16384 = false) := by decide
theorem witness_SearchBeginsAtFirstPair :
    let s := issuing (.search 7) (loaded [5, 6]); let t := issuing (.search 7) (loaded [5, 6, 7])
    (s.status.state ≠ .busy ∧ s.host = .issue (.search 7) :: [.reset] ∧ s.len < 3) ∧
    (t.status.state ≠ .busy ∧ t.host = .issue (.search 7) :: [.reset] ∧ 3 ≤ t.len) := by decide
theorem witness_HaltedRunAndExecComplete :
    let s := halted .run 0 [99]; let t := halted .exec 0 [99, 1, 2]
    (s.status.state = .busy ∧ s.eng = .halted ∧ s.host = [] ∧ s.status.op = .run) ∧
    (t.status.state = .busy ∧ t.eng = .halted ∧ t.host = [] ∧ t.status.op = .exec ∧ t.mem.read 0 = some 99) := by decide

/-- The hypotheses of the judgement of an iteration. -/
abbrev Judged (v : Nat) (s : State) : Prop :=
  s.status.state = .busy ∧ s.eng = .halted ∧ s.host = [] ∧ s.status.op = .search ∧ s.mem.read 0 = some v ∧
  s.noun < 99 ∧ s.verb < 99 ∧ 2 < s.len

/-- A match; the last pair without a match; a pair with verb 98 that is not the last. -/
theorem witness_SearchJudgesEachIteration :
    let s := { halted .search 0 [99, 98, 98] with noun := 98, verb := 98, target := 99 }
    let t := { s with target := 7 }; let u := { t with noun := 97 }
    (Judged 99 s ∧ 99 = s.target) ∧ (Judged 99 t ∧ 99 ≠ t.target ∧ t.noun = 98 ∧ t.verb = 98) ∧
    (Judged 99 u ∧ 99 ≠ u.target ∧ ¬(u.noun = 98 ∧ u.verb = 98)) := by decide
theorem witness_PairsAreRowMajor : (0 < 9801 ∧ pairAt 0 = (0, 0)) ∧ (9800 < 9801 ∧ pairAt 9800 = (98, 98)) := by decide
/-- An ADD that completes; a HALT. -/
theorem witness_CursorAdvancesOrRunEnds :
    let s := running .run 0 [1, 0, 0, 0, 99]; let u := running .run 4 [1, 0, 0, 0, 99]
    (s.status.state = .busy ∧ s.eng = .running ∧ s.host.head? ≠ some .reset ∧ ∃ t, step s = .next t ∧ t.eng = .running) ∧
    (u.status.state = .busy ∧ u.eng = .running ∧ u.host.head? ≠ some .reset ∧ ∃ t, step u = .next t ∧ t.eng = .halted) :=
  ⟨⟨rfl, rfl, by decide, _, rfl, rfl⟩, ⟨rfl, rfl, by decide, _, rfl, rfl⟩⟩
/-- A LOAD, and a step of the engine. -/
theorem witness_OnlyLoadWritesSnapshot :
    (∃ t, step (issuing (.load [7]) (loaded [5])) = .next t ∧ t.snap = [(0, 7)]) ∧
    (∃ t, step (running .run 0 [1, 0, 0, 0, 99]) = .next t ∧ t.snap = (running .run 0 [1, 0, 0, 0, 99]).snap) :=
  ⟨⟨_, rfl, rfl⟩, ⟨_, rfl, rfl⟩⟩
/-- A match. -/
theorem witness_ResultAssignedOnlyOnMatch :
    ∃ t, step { halted .search 0 [99, 3, 12] with noun := 3, verb := 12, target := 99 } = .next t ∧
      t.result = { resNoun := 3, resVerb := 12 } := ⟨_, rfl, rfl⟩
theorem witness_ParametersNeverChange :
    ∃ t, step { running .run 0 [1] with host := [.reset] } = .next t ∧ t.params = small := ⟨_, rfl, rfl⟩
theorem witness_EveryStepKeepsInvariant_InvariantStatesAlwaysMove :
    Inv (running .run 4 [1, 0, 0, 0, 99]) ∧ ∃ t, step (running .run 4 [1, 0, 0, 0, 99]) = .next t :=
  ⟨running_inv, _, rfl⟩
theorem witness_RunEndsWithinFuel :
    let s := running .run 0 [1, 0, 0, 0]; Memory.total s.len s.mem ∧ s.eng = .running := by decide
theorem witness_EveryCommandEnds_StepsRefineAtomicCommand :
    let s := loaded [1, 0, 0, 0, 99]
    Inv s ∧ s.status.state ≠ .busy ∧ s.host = [] ∧ Command.run.representable s.params = true ∧
    (Command.load [16384]).representable s.params = true ∧ (Command.exec 16383 16383).representable s.params = true ∧
    (Command.search 16383).representable s.params = true := ⟨loaded_inv, by decide⟩
/-- Two blocks that differ in every register an earlier iteration writes. -/
theorem witness_IterationsAreIndependent :
    let s := loaded [1, 0, 0, 0, 99]
    let t := { s with mem := [(0, 5), (7, 7)], pc := 4, eng := .faulted, noun := 3, verb := 9, out := 8 }
    s.params = t.params ∧ s.len = t.len ∧ (∀ a, a < s.len → s.snap.read a = t.snap.read a) ∧
    Memory.total s.len s.snap := by decide
/-- A RUN again after an EXEC and a SEARCH (95 V5). -/
theorem witness_CommandsAreRepeatable :
    let s := loaded [1, 0, 0, 0, 99]
    Inv s ∧ s.status.state ≠ .busy ∧ Command.run.keepsImage = true ∧ Command.run.representable s.params = true ∧
    ∀ d ∈ [Command.exec 0 4, .search 2], d.keepsImage = true ∧ d.representable s.params = true :=
  ⟨loaded_inv, by decide⟩
/-- Two blocks with one image, the second after a search that faulted: its memory and registers differ. -/
theorem witness_OutcomeDependsOnImageAndCommand :
    let s := loaded [1, 0, 0, 0, 99]
    let t := { s with
      mem := [(0, 3), (1, 2), (2, 9), (3, 0), (4, 5)], eng := .faulted, verb := 5, target := 8, out := 7
      status := { state := .error, cause := .boundary, op := .search, found := false } }
    (Inv s ∧ Inv t) ∧ s.status.state ≠ .busy ∧ t.status.state ≠ .busy ∧ s.params = t.params ∧ s.len = t.len ∧
    (∀ a, a < s.len → s.snap.read a = t.snap.read a) ∧ (Command.search 100).keepsImage = true ∧
    (Command.search 100).representable s.params = true :=
  ⟨⟨loaded_inv, by constructor <;> decide⟩, by decide⟩
theorem witness_ExecAgreesWithRun :
    3 ≤ [99, 0, 0].length ∧ (loaded []).params.fits 16383 = true ∧ (loaded []).params.fits 0 = true := by decide
/-- 70 R139 (c): every EXEC of this image gives 99. -/
theorem halt_image_report (n v : Nat) : execReport n v (loaded [99, 0, 0]) = some (some 99, .none) := by
  with_unfolding_all rfl
/-- The first pair matches 2; the first pair faults; no pair matches 7. -/
theorem witness_SearchAgreesWithExec :
    (Inv (loaded [1, 0, 0, 0, 99]) ∧ (loaded [1, 0, 0, 0, 99]).status.state ≠ .busy ∧
      execReport (pairAt 0).1 (pairAt 0).2 (loaded [1, 0, 0, 0, 99]) = some (some 2, .none)) ∧
    (Inv (loaded [5, 0, 0]) ∧ (loaded [5, 0, 0]).status.state ≠ .busy ∧
      execReport (pairAt 0).1 (pairAt 0).2 (loaded [5, 0, 0]) = some (none, .processing)) ∧
    (Inv (loaded [99, 0, 0]) ∧ (loaded [99, 0, 0]).status.state ≠ .busy ∧
      ∀ j, j < 9801 → ∃ x, x ≠ 7 ∧ execReport (pairAt j).1 (pairAt j).2 (loaded [99, 0, 0]) = some (some x, .none)) :=
  ⟨⟨loaded_inv, by decide⟩, ⟨by constructor <;> decide, by decide⟩,
    ⟨by constructor <;> decide, by decide, fun _ _ => ⟨99, by decide, halt_image_report _ _⟩⟩⟩
theorem witness_HaltImageIgnoresNounAndVerb :
    3 ≤ (loaded [99, 0, 0]).len ∧ (loaded [99, 0, 0]).snap.read 0 = some 99 := by decide

end Sys2Proof.Tests
end

section
/-!
The parameters of the block (spec 00_scope.md R5, R6; log 2): no operation of the machine writes them.
-/
namespace Sys2Proof.Machine

@[simp] theorem load_params (image : List Nat) (s : State) : (load image s).params = s.params := rfl

@[simp] theorem beginRun_params (s : State) : (beginRun s).params = s.params := rfl

@[simp] theorem beginIteration_params (n v : Nat) (s : State) : (beginIteration n v s).params = s.params := by
  rcases beginIteration_cases n v s with ⟨-, e⟩ | ⟨-, e⟩ | ⟨-, e⟩ <;> simp [e]

@[simp] theorem beginExec_params (n v : Nat) (s : State) : (beginExec n v s).params = s.params := by
  simp [beginExec]

@[simp] theorem beginSearch_params (t : Nat) (s : State) : (beginSearch t s).params = s.params := by
  simp [beginSearch]

@[simp] theorem judge_params (s : State) : (judge s).params = s.params := by
  rcases judge_cases s with ⟨-, e⟩ | ⟨-, -, e⟩ | ⟨-, -, -, e⟩ | ⟨-, -, -, e⟩ <;> simp [e]

theorem accept_keeps_params {c : Command} {s t : State} (h : accept c s = .next t) : t.params = s.params := by
  rcases accept_cases c s with
    ⟨_, -, -, e⟩ | ⟨_, -, -, e⟩ | ⟨-, e⟩ | ⟨_, _, -, -, -, e⟩ | ⟨_, _, -, -, e⟩ | ⟨_, -, e⟩ <;>
    cases e.symm.trans h <;> simp

theorem engineStep_keeps_params {s t : State} (h : engineStep s = .next t) : t.params = s.params := by
  rcases engineStep_cases s with
    ⟨_, _, _, _, _, _, _, -, -, -, -, -, -, -, -, e⟩ | ⟨-, e⟩ | ⟨_, _, e, -, -⟩ | ⟨-, e⟩ <;>
    cases e.symm.trans h <;> simp

theorem endOfRun_keeps_params {s t : State} (h : endOfRun s = .next t) : t.params = s.params := by
  rcases endOfRun_cases s with ⟨-, e⟩ | ⟨-, _, -, e⟩ | ⟨-, _, -, e⟩ | ⟨-, e⟩ | ⟨-, e⟩ <;>
    cases e.symm.trans h <;> simp

theorem advance_keeps_params {s t : State} (h : advance s = .next t) : t.params = s.params := by
  rcases advance_cases s with ⟨-, -, e⟩ | ⟨-, -, e⟩ | ⟨-, -, -, e⟩ | ⟨-, e⟩
  · exact engineStep_keeps_params (e.symm.trans h)
  · exact endOfRun_keeps_params (e.symm.trans h)
  · cases e.symm.trans h
  · cases e.symm.trans h; rfl

/-- Settles O46: the host's reset keeps the parameters, and so does a command taken up and every move of the block. -/
theorem parametersNeverChange : Obligations.ParametersNeverChange := by
  intro s t h
  rcases step_cases s with ⟨rest, -, e⟩ | ⟨c, rest, -, -, e⟩ | ⟨-, hs, e⟩
  · cases e.symm.trans h; simp
  · exact (accept_keeps_params (e.symm.trans h)).trans (State.setHost_params s rest)
  · exact (advance_keeps_params (e.symm.trans h)).trans (State.setHost_params s hs)

end Sys2Proof.Machine
end

section
/-!
Progress (spec 00_scope.md R11, 10_state.md R31, 42_run_exec_search.md R106): what each part of a step needs to answer a
next state, and that the invariant provides it.
-/
namespace Sys2Proof.Machine

/-! ## What the invariant says of a memory, a status and an engine -/

theorem Memory.exists_read_of_total {n a : Nat} {m : Memory} (h : Memory.total n m) (ha : a < n) :
    ∃ v, m.read a = some v :=
  Option.isSome_iff_exists.mp (h a ha)

/-- A memory that is total below `n` has no cell there to stop a read (10 R31, log 3). -/
theorem Memory.no_unwritten_of_total {n : Nat} {m : Memory} (h : Memory.total n m) :
    ¬∃ a, a < n ∧ m.read a = none := by
  rintro ⟨a, ha, hnone⟩
  obtain ⟨v, hv⟩ := Memory.exists_read_of_total h ha
  cases hnone.symm.trans hv

theorem Status.op_ne_none_of_busy {x : Status} (hl : x.legal = true) (hb : x.state = .busy) : x.op ≠ .none := by
  intro ho
  simp [Status.legal, hb, ho] at hl

theorem engineAgrees_busy {e : Engine} (h : engineAgrees .busy e = true) : e = .running ∨ e = .halted := by
  cases e with
  | running => exact .inl rfl
  | halted => exact .inr rfl
  | stopped => cases h
  | faulted => cases h

/-! ## What each part of a step needs to answer a next state -/

/-- A command that a host can send is not refused (70 R134, log 9). -/
theorem accept_moves {c : Command} {s : State} (h : c.representable s.params = true) : ∃ t, accept c s = .next t := by
  rcases accept_cases c s with
    ⟨_, -, -, e⟩ | ⟨_, -, -, e⟩ | ⟨-, e⟩ | ⟨_, _, -, -, -, e⟩ | ⟨n, v, rfl, hw, -⟩ | ⟨_, -, e⟩
  · exact ⟨_, e⟩
  · exact ⟨_, e⟩
  · exact ⟨_, e⟩
  · exact ⟨_, e⟩
  · exact absurd (by simpa [Command.representable] using h) hw
  · exact ⟨_, e⟩

theorem engineStep_moves {s : State} (hm : Memory.total s.len s.mem) : ∃ t, engineStep s = .next t := by
  rcases engineStep_cases s with
    ⟨_, _, _, _, _, _, _, -, -, -, -, -, -, -, -, e⟩ | ⟨-, e⟩ | ⟨_, _, e, -, -⟩ | ⟨hu, -⟩
  · exact ⟨_, e⟩
  · exact ⟨_, e⟩
  · exact ⟨_, e⟩
  · exact absurd hu (Memory.no_unwritten_of_total hm)

/-- The sequencer's move after a HALT needs a command in progress and a value at address 0 (42 R95). -/
theorem endOfRun_moves {s : State} (hop : s.status.op ≠ .none) {v : Nat} (hv : s.mem.read 0 = some v) :
    ∃ t, endOfRun s = .next t := by
  rcases endOfRun_cases s with ⟨-, e⟩ | ⟨-, _, -, e⟩ | ⟨-, _, -, e⟩ | ⟨ho, -⟩ | ⟨hnone, -⟩
  · exact ⟨_, e⟩
  · exact ⟨_, e⟩
  · exact ⟨_, e⟩
  · exact absurd ho hop
  · cases hnone.symm.trans hv

/-! ## The invariant provides it -/

/-- The block has its own move, whatever moves of the host are left: those play no part in it. -/
theorem Inv.advance_moves {s : State} (hs : Inv s) (h : List HostMove) : ∃ t, advance (s.setHost h) = .next t := by
  have hbusy : s.status.state = .busy → s.eng = .running ∨ s.eng = .halted :=
    fun hb => engineAgrees_busy (hb ▸ hs.engine)
  rcases advance_cases (s.setHost h) with ⟨-, he, e⟩ | ⟨hb, he, e⟩ | ⟨hb, hr, hh, -⟩ | ⟨-, e⟩
  · rw [e]
    exact engineStep_moves (hs.memTotal (by simp [show s.eng = .running from he]))
  · rw [e]
    have hm : Memory.total s.len s.mem := hs.memTotal (by simp [show s.eng = .halted from he])
    obtain ⟨v, hv⟩ := Memory.exists_read_of_total hm (hs.haltedNonempty he)
    exact endOfRun_moves (Status.op_ne_none_of_busy hs.statusLegal hb) hv
  · exact (hbusy hb).elim (absurd · hr) (absurd · hh)
  · exact ⟨_, e⟩

theorem Inv.representable_of_host {s : State} (hs : Inv s) {c : Command} {rest : List HostMove}
    (h : s.host = .issue c :: rest) : c.representable s.params = true :=
  hs.hostMoves (.issue c) (h ▸ List.mem_cons_self)

/-- Settles O49: a reset always acts, a command of the host's is representable, and the block has its own move. -/
theorem invariantStatesAlwaysMove : Obligations.InvariantStatesAlwaysMove := by
  intro s hs
  rcases step_cases s with ⟨rest, -, e⟩ | ⟨c, rest, hc, -, e⟩ | ⟨-, h, e⟩ <;> rw [e]
  · exact ⟨_, rfl⟩
  · exact accept_moves (hs.representable_of_host hc)
  · exact hs.advance_moves h

end Sys2Proof.Machine
end

section
/-!
The invariant of the machine at reset and along every step (spec 10_state.md R13, R15, R25 to R31; 20_memory.md R50;
41_dispatch_halt_cursor.md R81; 42_run_exec_search.md R101; 70_reset_and_hazards.md R130): one lemma per state operation
says when it keeps `Inv`, and each part of a step is a sequence of these operations.
-/
namespace Sys2Proof.Machine

/-! ## Cell values -/

/-- `W` is at least 14 (00 R5), so every counter and every opcode is a cell value. -/
theorem Params.fits_of_lt {p : Params} (hp : p.admissible = true) {v : Nat} (hv : v < 2 ^ 14) : p.fits v = true := by
  obtain ⟨width, memCellsMax⟩ := p
  cases width with
  | unbounded => rfl
  | bits w =>
    have hw : 14 ≤ w ∧ memCellsMax + 4 ≤ 2 ^ w := by simpa [Params.admissible] using hp
    have hpow : 2 ^ 14 ≤ 2 ^ w := Nat.pow_le_pow_right (by omega) hw.1
    exact decide_eq_true (Nat.lt_of_lt_of_le hv hpow)

theorem Params.fits_zero {p : Params} (hp : p.admissible = true) : p.fits 0 = true := Params.fits_of_lt hp (by decide)

theorem Memory.mem_of_read {m : Memory} {a v : Nat} (h : m.read a = some v) : (a, v) ∈ m := by
  induction m with
  | nil => cases h
  | cons c m ih =>
    obtain ⟨b, w⟩ := c
    rw [Memory.read_cons] at h
    split at h
    · next hab =>
      cases h
      exact hab ▸ List.mem_cons_self
    · exact List.mem_cons_of_mem _ (ih h)

theorem Memory.fits_of_read {p : Params} {m : Memory} (hm : Memory.holdsCells p m) {a v : Nat}
    (h : m.read a = some v) : p.fits v = true :=
  hm _ (Memory.mem_of_read h)

/-! ## What a copy, an image and a write keep of a memory -/

/-- The cells of a copy are cells of its source or of its destination. -/
theorem Memory.mem_copyBelow {src dst : Memory} {n : Nat} {c : Nat × Nat} (h : c ∈ Memory.copyBelow src dst n) :
    c ∈ src ∨ c ∈ dst :=
  (List.mem_append.mp h).imp (fun h => (List.mem_filter.mp h).1) (fun h => (List.mem_filter.mp h).1)

theorem Memory.total_copyBelow {src : Memory} (dst : Memory) {n : Nat} (h : Memory.total n src) :
    Memory.total n (Memory.copyBelow src dst n) := by
  intro a ha
  rw [Memory.read_copyBelow, if_pos ha]
  exact h a ha

/-- The cells that an accepted `LOAD` leaves in `SNAP`: those of the image, or old ones. -/
theorem Memory.mem_image {m : Memory} {vs : List Nat} {c : Nat × Nat}
    (h : c ∈ Memory.ofCells 0 vs ++ m.beyond vs.length) : (c.1 < vs.length ∧ c.2 ∈ vs) ∨ c ∈ m := by
  rcases List.mem_append.mp h with h | h
  · obtain ⟨-, hlt, hv⟩ := Memory.mem_ofCells h
    exact .inl ⟨by omega, hv⟩
  · exact .inr (List.mem_filter.mp h).1

theorem Memory.total_image (m : Memory) (vs : List Nat) :
    Memory.total vs.length (Memory.ofCells 0 vs ++ m.beyond vs.length) := by
  intro a ha
  rw [Memory.read_image, if_pos ha]
  simp [ha]

theorem Memory.total_write {n : Nat} {m : Memory} (h : Memory.total n m) (a v : Nat) :
    Memory.total n (m.write a v) := by
  intro x hx
  rw [Memory.read_write]
  split
  · rfl
  · exact h x hx

/-! ## What the legal statuses say (10 R25) -/

/-- A legal status of a busy block is that of a command in progress. -/
theorem Status.eq_inProgress_of_busy {x : Status} (hl : x.legal = true) (hb : x.state = .busy) :
    x = Status.inProgress x.op := by
  obtain ⟨state, cause, op, found⟩ := x
  cases hb
  cases cause with
  | none =>
    cases found with
    | false => rfl
    | true => cases op <;> cases hl
  | processing | boundary | overflow => cases hl

theorem Status.legal_inProgress {op : Op} (h : op ≠ .none) : (Status.inProgress op).legal = true := by
  cases op with
  | none => exact absurd rfl h
  | run | exec | search => rfl

theorem Status.legal_completed {op : Op} (h : op ≠ .none) : (Status.completed op false).legal = true := by
  cases op with
  | none => exact absurd rfl h
  | run | exec | search => rfl

theorem Status.legal_fault {op : Op} (h : op ≠ .none) (k : FaultKind) :
    (Status.mk .error k.cause op false).legal = true := by
  cases op with
  | none => exact absurd rfl h
  | run | exec | search => cases k <;> rfl

/-! ## The range of `RESULT` (10 R28) -/

theorem SearchResult.reset_bound :
    SearchResult.reset.resNoun.toNat < 99 ∧ SearchResult.reset.resVerb.toNat < 99 := by decide

/-- The pair of a search in progress fits the 7-bit fields of `RESULT` (10 R28). -/
theorem SearchResult.ofPair_bound {n v : Nat} (hn : n < 99) (hv : v < 99) :
    (SearchResult.ofPair n v).resNoun.toNat < 99 ∧ (SearchResult.ofPair n v).resVerb.toNat < 99 := by
  simp only [SearchResult.ofPair, BitVec.toNat_ofNat]
  omega

/-! ## Reset and `LOAD` -/

/-- The reset state meets the invariant, whatever the parameters and the pending moves (10 R31, 70 R130). -/
theorem inv_reset {p : Params} {h : List HostMove} (hp : p.admissible = true)
    (hh : ∀ m ∈ h, m.representable p = true) : Inv { State.reset with params := p, host := h } where
  params := hp
  snapForm := rfl
  memForm := rfl
  snapCells := by simp [State.reset]
  memCells := by simp [State.reset]
  snapSize := by simp [State.reset]
  memSize := by simp [State.reset]
  lenBound := Nat.zero_le _
  snapTotal := fun _ ha => absurd ha (Nat.not_lt_zero _)
  memTotal := fun _ _ ha => absurd ha (Nat.not_lt_zero _)
  pcAligned := rfl
  pcBound := Nat.le_refl _
  statusLegal := rfl
  engine := rfl
  haltedNonempty := nofun
  targetCell := Params.fits_zero hp
  nounCell := Params.fits_zero hp
  verbCell := Params.fits_zero hp
  outCell := Params.fits_zero hp
  latchCells := ⟨Params.fits_zero hp, Params.fits_zero hp, Params.fits_zero hp, Params.fits_zero hp⟩
  counters := nofun
  resultBound := SearchResult.reset_bound
  resultUnassigned := nofun
  foundMeans := nofun
  hostMoves := hh

protected theorem Inv.hardReset {s : State} (hs : Inv s) : Inv (hardReset s) := inv_reset hs.params hs.hostMoves

/-- An accepted image fits the memories, and its values fit a cell (42 R88). -/
theorem loadAccepted_iff (p : Params) (image : List Nat) :
    loadAccepted p image = true ↔ image.length ≤ p.memCellsMax ∧ ∀ v ∈ image, p.fits v = true := by
  simp [loadAccepted]

protected theorem Inv.load {s : State} (hs : Inv s) {image : List Nat} (h : loadAccepted s.params image = true) :
    Inv (load image s) := by
  obtain ⟨hlen, hfits⟩ := (loadAccepted_iff _ _).mp h
  have hreset := inv_reset hs.params hs.hostMoves
  exact { hreset with
    snapForm := Memory.wf_image hs.snapForm image
    memForm := hs.memForm
    snapCells := fun c hc => (Memory.mem_image hc).elim (fun h => hfits _ h.2) (hs.snapCells c)
    memCells := hs.memCells
    snapSize := fun c hc => (Memory.mem_image hc).elim (fun h => Nat.lt_of_lt_of_le h.1 hlen) (hs.snapSize c)
    memSize := hs.memSize
    lenBound := hlen
    snapTotal := Memory.total_image s.snap image
    memTotal := fun hne => absurd rfl hne
    pcBound := Nat.zero_le _
    haltedNonempty := nofun }

/-! ## One write of a register, a latch or a cell -/

/-- The moves the host has yet to make may be dropped one by one. -/
protected theorem Inv.setHost {s : State} (hs : Inv s) {h : List HostMove} (hh : h ⊆ s.host) : Inv (s.setHost h) :=
  { hs with hostMoves := fun m hm => hs.hostMoves m (hh hm) }

/-- A latch holds a cell value, because every cell does. -/
protected theorem Inv.setIr {s : State} (hs : Inv s) {l : Latches} (hl : l.FromCells s) : Inv (s.setIr l) := by
  have fits_of {old new : Nat} (hold : s.params.fits old = true) (h : new = old ∨ ∃ x, s.mem.read x = some new) :
      s.params.fits new = true := by
    rcases h with rfl | ⟨x, hx⟩
    · exact hold
    · exact Memory.fits_of_read hs.memCells hx
  obtain ⟨hop, ha, hb, hd⟩ := hl
  obtain ⟨fop, fa, fb, fd⟩ := hs.latchCells
  exact { hs with latchCells := ⟨fits_of fop hop, fits_of fa ha, fits_of fb hb, fits_of fd hd⟩ }

/-- A checked write of a cell value (20 R35, R50). -/
protected theorem Inv.writeCell {s : State} (hs : Inv s) {a v : Nat} (ha : a < s.len) (hv : s.params.fits v = true) :
    Inv (s.setMem (s.mem.write a v)) :=
  { hs with
    memForm := Memory.wf_write hs.memForm a v
    memCells := fun c hc => (Memory.mem_write hc).elim (fun h => h ▸ hv) (hs.memCells c)
    memSize := fun c hc =>
      (Memory.mem_write hc).elim (fun h => h ▸ Nat.lt_of_lt_of_le ha hs.lenBound) (hs.memSize c)
    memTotal := fun he => Memory.total_write (hs.memTotal he) a v }

/-- The cursor's advance stays aligned, and within the image when the four cells of the instruction do (41 R80, R81). -/
protected theorem Inv.advancePc {s : State} (hs : Inv s) (h : s.pc + 3 < s.len) : Inv (advancePc s) :=
  { hs with
    pcAligned := (Nat.add_mod_right s.pc 4).trans hs.pcAligned
    pcBound := h }

/-! ## The writes of a command in progress -/

section
variable {s : State} (hs : Inv s) (hb : s.status.state = .busy)
include hs hb

protected theorem Inv.found_of_busy : s.status.found = false :=
  congrArg Status.found (Status.eq_inProgress_of_busy hs.statusLegal hb)

protected theorem Inv.op_ne_none_of_busy : s.status.op ≠ .none := Status.op_ne_none_of_busy hs.statusLegal hb

protected theorem Inv.engineAgrees_of_busy : engineAgrees .busy s.eng = true := hb ▸ hs.engine

protected theorem Inv.memTotal_of_busy : Memory.total s.len s.mem := by
  apply hs.memTotal
  rcases engineAgrees_busy (hs.engineAgrees_of_busy hb) with h | h <;> simp [h]

/-- `FOUND` is clear in a command in progress, so what it means holds of any registers. -/
protected theorem Inv.foundMeans_of_busy {P : Prop} (h : s.status.found = true) : P := by
  simp [hs.found_of_busy hb] at h

/-- The engine halts at a 99, so the image is not empty (41 R78, 42 R95). -/
protected theorem Inv.setHalted (hlen : 0 < s.len) : Inv (s.setEng .halted) :=
  { hs with
    memTotal := fun _ => hs.memTotal_of_busy hb
    engine := (congrArg (engineAgrees · .halted) hb).trans rfl
    haltedNonempty := fun _ => hlen }

/-- The entry of a fault ends the command in progress (60 R117). -/
protected theorem Inv.takeFault (k : FaultKind) : Inv (takeFault k s) :=
  { hs with
    memTotal := fun _ => hs.memTotal_of_busy hb
    statusLegal := Status.legal_fault (hs.op_ne_none_of_busy hb) k
    engine := rfl
    haltedNonempty := nofun
    resultUnassigned := fun ho _ => hs.resultUnassigned ho (hs.found_of_busy hb)
    foundMeans := nofun }

protected theorem Inv.setOut {v : Nat} (hv : s.params.fits v = true) : Inv (s.setOut v) :=
  { hs with
    outCell := hv
    foundMeans := hs.foundMeans_of_busy hb }

protected theorem Inv.setPair {n v : Nat} (hn : s.params.fits n = true) (hv : s.params.fits v = true)
    (hc : s.status.op = .search → n < 99 ∧ v < 99) : Inv (setPair n v s) :=
  { hs with
    nounCell := hn
    verbCell := hv
    counters := hc
    foundMeans := hs.foundMeans_of_busy hb }

/-- The registers of a search at its start (42 R96): `RESULT` is cleared, and not assigned before a match (R101). -/
protected theorem Inv.startSearch {t : Nat} (ht : s.params.fits t = true) (hc : s.noun < 99 ∧ s.verb < 99) :
    Inv (startSearch t s) :=
  { hs with
    statusLegal := rfl
    engine := hs.engineAgrees_of_busy hb
    targetCell := ht
    counters := fun _ => hc
    resultBound := SearchResult.reset_bound
    resultUnassigned := fun _ _ => rfl
    foundMeans := nofun }

/-- The end of a halted command without a match (42 R89, R95, R99). -/
protected theorem Inv.complete (he : s.eng = .halted) : Inv (s.setStatus (Status.completed s.status.op false)) :=
  { hs with
    statusLegal := Status.legal_completed (hs.op_ne_none_of_busy hb)
    engine := congrArg (engineAgrees .done) he
    resultUnassigned := fun ho _ => hs.resultUnassigned ho (hs.found_of_busy hb)
    foundMeans := nofun }

end

/-- The end of a search at a match: `RESULT` is the pair that gave `OUT = TARGET` (42 R98, R101). -/
protected theorem Inv.matched {s : State} (hs : Inv s) (he : s.eng = .halted) (hop : s.status.op = .search)
    (hout : s.out = s.target) : Inv (matched s) :=
  { hs with
    statusLegal := rfl
    engine := congrArg (engineAgrees .done) he
    counters := fun _ => hs.counters hop
    resultBound := SearchResult.ofPair_bound (hs.counters hop).1 (hs.counters hop).2
    resultUnassigned := nofun
    foundMeans := fun _ => ⟨hout, rfl⟩ }

/-! ## The beginning of a command and of an iteration -/

/-- `Restore()` for a command in progress (42 R93), whatever the block was doing before: `MEM` becomes total because
`SNAP` is. -/
protected theorem Inv.restore_inProgress {s : State} (hs : Inv s) {op : Op} (hop : op ≠ .none)
    (hsearch : op = .search → (s.noun < 99 ∧ s.verb < 99) ∧ s.result = SearchResult.reset) :
    Inv (restore (s.setStatus (Status.inProgress op))) :=
  { hs with
    memForm := Memory.wf_copyBelow hs.snapForm hs.memForm s.len
    memCells := fun c hc => (Memory.mem_copyBelow hc).elim (hs.snapCells c) (hs.memCells c)
    memSize := fun c hc => (Memory.mem_copyBelow hc).elim (hs.snapSize c) (hs.memSize c)
    memTotal := fun _ => Memory.total_copyBelow s.mem hs.snapTotal
    pcAligned := rfl
    pcBound := Nat.zero_le _
    statusLegal := Status.legal_inProgress hop
    engine := rfl
    haltedNonempty := nofun
    counters := fun ho => (hsearch ho).1
    resultUnassigned := fun ho _ => (hsearch ho).2
    foundMeans := nofun }

/-- `Restore()` between two iterations of a search (42 R95, R96): the command in progress stays. -/
protected theorem Inv.restore {s : State} (hs : Inv s) (hb : s.status.state = .busy) : Inv (restore s) := by
  have hstatus : s.status = Status.inProgress s.status.op := Status.eq_inProgress_of_busy hs.statusLegal hb
  have hrestored := hs.restore_inProgress (hs.op_ne_none_of_busy hb) fun ho =>
    ⟨hs.counters ho, hs.resultUnassigned ho (hs.found_of_busy hb)⟩
  rwa [← hstatus] at hrestored

protected theorem Inv.beginRun {s : State} (hs : Inv s) : Inv (beginRun s) :=
  show Inv (restore (s.setStatus (Status.inProgress .run))) from hs.restore_inProgress Op.noConfusion Op.noConfusion

/-- The injection of a pair into a restored image: two writes of cell values, or a fault (42 R94, R95). -/
protected theorem Inv.beginIteration {n v : Nat} {s : State} (hr : Inv (restore s)) (hb : s.status.state = .busy)
    (hn : s.params.fits n = true) (hv : s.params.fits v = true) : Inv (beginIteration n v s) := by
  rcases beginIteration_cases n v s with ⟨-, e⟩ | ⟨hl, e⟩ | ⟨hl, e⟩ <;> rw [e]
  · exact hr.takeFault hb .boundary
  · have hnoun := hr.writeCell (show 1 < s.len by omega) hn
    exact hnoun.takeFault hb .boundary
  · have hnoun := hr.writeCell (show 1 < s.len by omega) hn
    exact hnoun.writeCell hl hv

protected theorem Inv.beginExec {n v : Nat} {s : State} (hs : Inv s) (hn : s.params.fits n = true)
    (hv : s.params.fits v = true) : Inv (beginExec n v s) := by
  have hrestored : Inv (restore (s.setStatus (Status.inProgress .exec))) :=
    hs.restore_inProgress Op.noConfusion Op.noConfusion
  exact Inv.beginIteration (hrestored.setPair rfl hn hv nofun) rfl hn hv

/-- The search's own writes come before `Restore()` and touch other fields, so the restored state may be taken first. -/
protected theorem Inv.beginSearch {t : Nat} {s : State} (hs : Inv s) (ht : s.params.fits t = true) :
    Inv (beginSearch t s) := by
  have h0 : s.params.fits 0 = true := Params.fits_zero hs.params
  have hpaired : Inv (setPair 0 0 (restore (s.setStatus (Status.inProgress .run)))) :=
    (hs.restore_inProgress Op.noConfusion Op.noConfusion).setPair rfl h0 h0 nofun
  have hstarted : Inv (restore (setPair 0 0 (startSearch t s))) := hpaired.startSearch rfl ht (by simp)
  exact hstarted.beginIteration rfl h0 h0

/-- A command that a host can send, taken up (42 R87; 70 R134). -/
protected theorem Inv.accept {c : Command} {s t : State} (hs : Inv s) (hc : c.representable s.params = true)
    (h : accept c s = .next t) : Inv t := by
  rcases accept_cases c s with
    ⟨_, -, hl, e⟩ | ⟨_, -, -, e⟩ | ⟨-, e⟩ | ⟨_, _, -, hn, hv, e⟩ | ⟨_, _, -, -, e⟩ | ⟨_, rfl, e⟩ <;>
    cases e.symm.trans h
  · exact hs.load hl
  · exact hs
  · exact hs.beginRun
  · exact hs.beginExec hn hv
  · exact hs.beginSearch hc

/-! ## The block's own moves -/

protected theorem Inv.engineStep {s t : State} (hs : Inv s) (hb : s.status.state = .busy) (h : engineStep s = .next t) :
    Inv t := by
  rcases engineStep_cases s with
    ⟨i, alu, a, b, d, va, vb, hi, hc, -, -, hd, -, -, hf, e⟩ | ⟨hc, e⟩ | ⟨k, l, e, hl, -⟩ | ⟨-, e⟩ <;>
    cases e.symm.trans h
  · have hpc : s.pc + 3 < s.len := holdsAtCursor_computes hi hc
    exact ((hs.setIr (Latches.fromCells_load hc)).writeCell hd hf).advancePc hpc
  · have hpc : s.pc + 0 < s.len := (hc 0 99 rfl).1
    exact (hs.setIr (Latches.fromCells_load hc)).setHalted hb (Nat.zero_lt_of_lt hpc)
  · exact (hs.setIr hl).takeFault hb k

/-- The next iteration of a search in progress (42 R97). -/
protected theorem Inv.nextPair {s : State} (hs : Inv s) (hb : s.status.state = .busy) {n v : Nat} (hn : n < 99)
    (hv : v < 99) : Inv (beginIteration n v (setPair n v s)) := by
  have hfit {x : Nat} (hx : x < 99) : s.params.fits x = true := Params.fits_of_lt hs.params (by omega)
  have hpaired : Inv (setPair n v s) := hs.setPair hb (hfit hn) (hfit hv) fun _ => ⟨hn, hv⟩
  have hrestored : Inv (restore (setPair n v s)) := hpaired.restore hb
  exact hrestored.beginIteration hb (hfit hn) (hfit hv)

protected theorem Inv.judge {s : State} (hs : Inv s) (hb : s.status.state = .busy) (he : s.eng = .halted)
    (hop : s.status.op = .search) : Inv (judge s) := by
  obtain ⟨hn, hv⟩ := hs.counters hop
  rcases judge_cases s with ⟨hout, e⟩ | ⟨-, hv', e⟩ | ⟨-, -, hn', e⟩ | ⟨-, -, -, e⟩ <;> rw [e]
  · exact hs.matched he hop hout
  · exact hs.nextPair hb hn hv'
  · exact hs.nextPair hb hn' (by decide)
  · exact hop ▸ hs.complete hb he

protected theorem Inv.endOfRun {s t : State} (hs : Inv s) (hb : s.status.state = .busy) (he : s.eng = .halted)
    (h : endOfRun s = .next t) : Inv t := by
  have hout {v : Nat} (hv : s.mem.read 0 = some v) : Inv (s.setOut v) :=
    hs.setOut hb (Memory.fits_of_read hs.memCells hv)
  rcases endOfRun_cases s with ⟨hop, e⟩ | ⟨hop, v, hv, e⟩ | ⟨hop, v, hv, e⟩ | ⟨-, e⟩ | ⟨-, e⟩ <;>
    cases e.symm.trans h
  · exact hop ▸ hs.complete hb he
  · exact hop ▸ (hout hv).complete hb he
  · exact (hout hv).judge hb he hop

protected theorem Inv.advance {s t : State} (hs : Inv s) (h : advance s = .next t) : Inv t := by
  rcases advance_cases s with ⟨hb, -, e⟩ | ⟨hb, he, e⟩ | ⟨-, -, -, e⟩ | ⟨-, e⟩
  · exact hs.engineStep hb (e.symm.trans h)
  · exact hs.endOfRun hb he (e.symm.trans h)
  · cases e.symm.trans h
  · cases e.symm.trans h
    exact hs

/-! ## The step -/

/-- As `step_cases`, with what becomes of the host's moves in the block's own move: one `quiet` at most is used up. -/
theorem step_cases_afterQuiet (s : State) :
    (∃ rest, s.host = .reset :: rest ∧ step s = .next (hardReset (s.setHost rest))) ∨
    (∃ c rest, s.host = .issue c :: rest ∧ step s = accept c (s.setHost rest)) ∨
    step s = advance s.afterQuiet := by
  cases hh : s.host with
  | nil => exact .inr (.inr (by simp only [step, blockStep, State.afterQuiet, hh]))
  | cons m rest =>
    cases m with
    | quiet => exact .inr (.inr (by simp only [step, blockStep, State.afterQuiet, hh]))
    | reset => exact .inl ⟨rest, rfl, by simp only [step, blockStep, hh]⟩
    | issue c =>
      by_cases hb : s.status.state = .busy
      · exact .inr (.inr (by simp only [step, blockStep, State.afterQuiet, hh, if_pos hb]))
      · exact .inr (.inl ⟨c, rest, rfl, by simp only [step, blockStep, hh, if_neg hb]⟩)

protected theorem Inv.afterQuiet {s : State} (hs : Inv s) : Inv s.afterQuiet := by
  unfold State.afterQuiet
  split
  · next rest hh => exact hs.setHost (hh ▸ List.subset_cons_self _ rest)
  · exact hs

/-- Settles O48: the host's reset, a command taken up and every move of the block keep the invariant. -/
theorem everyStepKeepsInvariant : Obligations.EveryStepKeepsInvariant := by
  intro s t hs h
  have hrest {m : HostMove} {rest : List HostMove} (hh : s.host = m :: rest) : Inv (s.setHost rest) :=
    hs.setHost (hh ▸ List.subset_cons_self m rest)
  rcases step_cases_afterQuiet s with ⟨rest, hh, e⟩ | ⟨c, rest, hh, e⟩ | e
  · cases e.symm.trans h
    exact (hrest hh).hardReset
  · exact (hrest hh).accept (hs.representable_of_host hh) (e.symm.trans h)
  · exact hs.afterQuiet.advance (e.symm.trans h)

/-- Settles O47: the default parameters are admissible, and no move of the host is pending. -/
theorem resetMeetsInvariant : Obligations.ResetMeetsInvariant :=
  inv_reset (show Params.standard.admissible = true by decide) nofun

end Sys2Proof.Machine
end

section
/-!
The control registers (spec 10_state.md R23 to R32): the bits of `STATUS`, its legal combinations, `RESULT` and `ANSWER`,
and what the host can read.
-/
namespace Sys2Proof.Machine

/-! ## The `STATUS` byte (10 R24) -/

section
variable (x : Status)

theorem Status.byte_state : x.byte.extractLsb' 0 2 = x.state.code := BitVec.extractLsb'_append_eq_right

theorem Status.byte_cause : x.byte.extractLsb' 2 2 = x.cause.code := by
  rw [Status.byte, BitVec.extractLsb'_append_eq_of_le (Nat.le_refl 2)]
  exact BitVec.extractLsb'_append_eq_right

theorem Status.byte_op : x.byte.extractLsb' 4 2 = x.op.code := by
  rw [Status.byte, BitVec.extractLsb'_append_eq_of_le (by decide), BitVec.extractLsb'_append_eq_of_le (by decide)]
  exact BitVec.extractLsb'_append_eq_right

/-- The bits above the three codes: `FOUND`, and then the one that reads 0. -/
theorem Status.byte_getLsbD_add_six (i : Nat) :
    x.byte.getLsbD (i + 6) = ((0 : BitVec 1) ++ BitVec.ofBool x.found).getLsbD i := by
  rw [Status.byte, BitVec.getLsbD_append, if_neg (by omega), BitVec.getLsbD_append, if_neg (by omega),
    BitVec.getLsbD_append, if_neg (by omega)]
  rfl

theorem Status.byte_found : x.byte.getLsbD 6 = x.found := by
  rw [x.byte_getLsbD_add_six 0, BitVec.getLsbD_append]
  simp

theorem Status.byte_bit7 : x.byte.getLsbD 7 = false := by
  rw [x.byte_getLsbD_add_six 1, BitVec.getLsbD_append]
  simp

end

/-- Settles O27: each field is cut out of the concatenation; the codes and the examples are evaluated. -/
theorem statusByteLayout : Obligations.StatusByteLayout := by
  refine ⟨⟨rfl, rfl, rfl, rfl⟩, ⟨rfl, rfl, rfl, rfl⟩, ⟨rfl, rfl, rfl, rfl⟩, fun x => ?_, ?_⟩
  · exact ⟨x.byte_state, x.byte_cause, x.byte_op, x.byte_found, x.byte_bit7⟩
  · decide

/-! ## The legal combinations of `STATUS` (10 R25) -/

/-- `Status.legal` of the four fields as one tuple, so that a list of combinations can be checked. -/
def Status.legalFields (y : BlockState × Cause × Op × Bool) : Bool :=
  Status.legal { state := y.1, cause := y.2.1, op := y.2.2.1, found := y.2.2.2 }

/-- Settles O28: every arm of the table that answers `true` is named (the arm of a completed search twice, once for each
`FOUND`), and each of the 17 named is such an arm. -/
theorem seventeenLegalStatuses : Obligations.SeventeenLegalStatuses := by
  intro x c o f
  constructor
  · intro h
    unfold Status.legal at h
    split at h
    case h_7 => cases f <;> simp_all
    all_goals simp_all
  · intro h
    exact (List.all_eq_true.mp (by decide) _ h : Status.legalFields (x, c, o, f) = true)

/-! ## `RESULT` and `ANSWER` (10 R28, R29) -/

section
variable (r : SearchResult)

theorem SearchResult.bits_resNoun : r.bits.extractLsb' 7 7 = r.resNoun := BitVec.extractLsb'_append_eq_left

theorem SearchResult.bits_resVerb : r.bits.extractLsb' 0 7 = r.resVerb := BitVec.extractLsb'_append_eq_right

/-- Two 7-bit fields give `100 * 127 + 127` at most, which is below `2^14`: no overflow. -/
theorem SearchResult.answer_toNat : r.answer.toNat = 100 * r.resNoun.toNat + r.resVerb.toNat := by
  have hn : r.resNoun.toNat < 2 ^ 7 := r.resNoun.isLt
  have hv : r.resVerb.toNat < 2 ^ 7 := r.resVerb.isLt
  have hlt : 100 * r.resNoun.toNat + r.resVerb.toNat < 2 ^ 14 := by omega
  rw [SearchResult.answer, BitVec.toNat_ofNat, Nat.mod_eq_of_lt hlt]

end

/-- Settles O29: `ANSWER` is exact, so division by 100 gives the pair back. -/
theorem answerRecoversThePair : Obligations.AnswerRecoversThePair := by
  intro r
  have hanswer := r.answer_toNat
  exact ⟨r.bits_resNoun, r.bits_resVerb, hanswer, fun hv => ⟨by omega, by omega⟩⟩

/-! ## What the host can read (10 R32) -/

section
variable (s : State)

theorem readMem_eq_some_iff (i v : Nat) :
    readMem i s = some v ↔ s.status.state = .done ∧ s.status.op = .run ∧ i < s.len ∧ s.mem.read i = some v := by
  simp [readMem, and_assoc]

theorem readOut_eq_some_iff (v : Nat) :
    readOut s = some v ↔ s.status.state = .done ∧ (s.status.op = .exec ∨ s.status.op = .search) ∧ s.out = v := by
  simp [readOut, and_assoc]

theorem readResult_eq_some_iff (r : SearchResult) :
    readResult s = some r ↔ s.status.state = .done ∧ s.status.op = .search ∧ s.result = r := by
  simp [readResult, and_assoc]

theorem readAnswer_eq_some_iff (w : BitVec 14) :
    readAnswer s = some w ↔ s.status.state = .done ∧ s.status.op = .search ∧ s.result.answer = w := by
  simp [readAnswer, and_assoc]

end

/-- Settles O30: two reads are unconditional, and each of the others has a value exactly under its condition. -/
theorem hostReadsFollowVisibility : Obligations.HostReadsFollowVisibility := fun s i v r w =>
  ⟨rfl, rfl, readMem_eq_some_iff s i v, readOut_eq_some_iff s v, readResult_eq_some_iff s r, readAnswer_eq_some_iff s w⟩

/-- Settles O31: every value is read off the reset state. -/
theorem resetStateValues : Obligations.ResetStateValues :=
  ⟨rfl, rfl, rfl, rfl, rfl, rfl, rfl, rfl, rfl, rfl⟩

end Sys2Proof.Machine
end

section
/-!
The memory rules (spec 20_memory.md R34, R35, R40, R45, R49; 10_state.md R13, R15; 70_reset_and_hazards.md R136): the
checked accesses, a store that the next fetch sees, and which steps write `SNAP` and `LEN`.
-/
namespace Sys2Proof.Machine

/-! ## The checked accesses (20 R34, R35) -/

/-- A cell below `LEN` without a value, whose read R31 calls impossible (log 3). -/
theorem memRead_unwritten {a : Nat} {s : State} (h : a < s.len) (hv : s.mem.read a = none) :
    memRead a s = .unwritten := by
  rw [memRead, if_neg (Nat.not_le.mpr h), hv]

/-- Settles O8: one rule of the checked read for each clause. -/
theorem memReadIsChecked : Obligations.MemReadIsChecked := fun _ _ =>
  ⟨memRead_beyond, fun _ => memRead_ok, memRead_unwritten⟩

theorem oneCellWritten_setMem_write (a v : Nat) (s : State) : OneCellWritten a v s (s.setMem (s.mem.write a v)) :=
  ⟨Memory.read_write_same s.mem a v, fun _ hz => Memory.read_write_other s.mem v hz⟩

/-- Settles O9: the write sets the memory only, and a written memory differs in one cell. -/
theorem memWriteIsChecked : Obligations.MemWriteIsChecked := fun a v s =>
  ⟨memWrite_beyond, fun ha => ⟨s.setMem (s.mem.write a v), memWrite_ok ha, oneCellWritten_setMem_write a v s, rfl⟩⟩

/-! ## A store to the next opcode cell (20 R45, 70 R136) -/

/-- An ADD or MUL with readable sources, a result that fits and a destination below `LEN` completes. -/
theorem exec_computes_next {i : Instr} {alu : Nat → Nat → Nat} {a b d va vb : Nat} {s : State}
    (hi : Instr.computes i alu a b d) (ha : a < s.len) (hb : b < s.len) (hd : d < s.len)
    (hva : s.mem.read a = some va) (hvb : s.mem.read b = some vb) (hf : s.params.fits (alu va vb) = true) :
    exec i s = .next (advancePc (s.setMem (s.mem.write d (alu va vb)))) := by
  rw [exec_computes hi, computeAndStore_sources ha hb hva hvb, if_neg (by simp [hf]), if_neg (Nat.not_le.mpr hd),
    conclude_ok]

/-- The first cell of the window is the opcode cell (41 R76). -/
theorem State.window_head? {s : State} {v : Nat} (h : s.pc < s.len) (hv : s.mem.read s.pc = some v) :
    s.window.head? = some v := by
  rw [State.window, cellsFrom, if_neg (Nat.not_le.mpr h), hv]
  rfl

/-- The fetch reads the working memory as the store left it: the cursor moves to the cell that was written. -/
theorem exec_computes_window_head? {i : Instr} {alu : Nat → Nat → Nat} {a b va vb : Nat} {s : State}
    (hi : Instr.computes i alu a b (s.pc + 4)) (ha : a < s.len) (hb : b < s.len) (hpc : s.pc + 4 < s.len)
    (hva : s.mem.read a = some va) (hvb : s.mem.read b = some vb) (hf : s.params.fits (alu va vb) = true) :
    ∃ t, exec i s = .next t ∧ t.window.head? = some (alu va vb) :=
  ⟨_, exec_computes_next hi ha hb hpc hva hvb hf,
    State.window_head? hpc (Memory.read_write_same s.mem (s.pc + 4) (alu va vb))⟩

/-- Settles O20: ADD and MUL are the two instructions that compute. -/
theorem storeIsSeenByNextFetch : Obligations.StoreIsSeenByNextFetch := fun _ _ _ _ _ ha hb hpc hx hy =>
  ⟨exec_computes_window_head? (.inl ⟨rfl, rfl⟩) ha hb hpc hx hy,
    exec_computes_window_head? (.inr ⟨rfl, rfl⟩) ha hb hpc hx hy⟩

/-! ## The loaded image (20 R49) -/

/-- The loaded image: what `LOAD` writes and every other command keeps, `SNAP` and `LEN` (10 R13, R15). -/
def State.image (s : State) : Memory × Nat := (s.snap, s.len)

theorem State.image_eq_iff {s t : State} : t.image = s.image ↔ t.snap = s.snap ∧ t.len = s.len :=
  Iff.of_eq (Prod.mk.injEq ..)

theorem State.setHost_image (s : State) (h : List HostMove) : (s.setHost h).image = s.image := rfl

theorem beginIteration_image (n v : Nat) (s : State) : (beginIteration n v s).image = s.image := by
  rcases beginIteration_cases n v s with ⟨-, e⟩ | ⟨-, e⟩ | ⟨-, e⟩ <;> rw [e] <;> rfl

theorem judge_image (s : State) : (judge s).image = s.image := by
  rcases judge_cases s with ⟨-, e⟩ | ⟨-, -, e⟩ | ⟨-, -, -, e⟩ | ⟨-, -, -, e⟩ <;> rw [e]
  · rfl
  · exact beginIteration_image _ _ _
  · exact beginIteration_image _ _ _
  · rfl

/-- A command other than `LOAD`, taken up: `RUN`, `EXEC` and `SEARCH` read `SNAP` and `LEN` only. -/
theorem accept_keeps_image {c : Command} {s t : State} (hc : c.keepsImage = true) (h : accept c s = .next t) :
    t.image = s.image := by
  rcases accept_cases c s with
    ⟨_, rfl, -⟩ | ⟨_, rfl, -⟩ | ⟨-, e⟩ | ⟨_, _, -, -, -, e⟩ | ⟨_, _, -, -, e⟩ | ⟨_, -, e⟩
  · cases hc
  · cases hc
  · cases e.symm.trans h
    rfl
  · cases e.symm.trans h
    exact beginIteration_image _ _ _
  · cases e.symm.trans h
  · cases e.symm.trans h
    exact beginIteration_image _ _ _

theorem engineStep_keeps_image {s t : State} (h : engineStep s = .next t) : t.image = s.image := by
  rcases engineStep_cases s with
    ⟨_, _, _, _, _, _, _, -, -, -, -, -, -, -, -, e⟩ | ⟨-, e⟩ | ⟨_, _, e, -, -⟩ | ⟨-, e⟩ <;>
    cases e.symm.trans h <;> rfl

theorem endOfRun_keeps_image {s t : State} (h : endOfRun s = .next t) : t.image = s.image := by
  rcases endOfRun_cases s with ⟨-, e⟩ | ⟨-, _, -, e⟩ | ⟨-, v, -, e⟩ | ⟨-, e⟩ | ⟨-, e⟩ <;> cases e.symm.trans h
  · rfl
  · rfl
  · exact judge_image (s.setOut v)

theorem advance_keeps_image {s t : State} (h : advance s = .next t) : t.image = s.image := by
  rcases advance_cases s with ⟨-, -, e⟩ | ⟨-, -, e⟩ | ⟨-, -, -, e⟩ | ⟨-, e⟩
  · exact engineStep_keeps_image (e.symm.trans h)
  · exact endOfRun_keeps_image (e.symm.trans h)
  · cases e.symm.trans h
  · cases e.symm.trans h
    rfl

theorem Command.eq_load_of_keepsImage {c : Command} (h : ¬c.keepsImage = true) : ∃ image, c = .load image := by
  cases c with
  | load image => exact ⟨image, rfl⟩
  | run | exec | search => exact absurd rfl h

/-- Settles O44: the block's own moves and every command but `LOAD` keep the loaded image. -/
theorem onlyLoadWritesSnapshot : Obligations.OnlyLoadWritesSnapshot := by
  intro s t h
  rcases step_cases s with ⟨rest, hh, -⟩ | ⟨c, rest, hh, hb, e⟩ | ⟨-, hs, e⟩
  · exact .inr (.inl ⟨rest, hh⟩)
  · by_cases hc : c.keepsImage = true
    · have hkeeps : t.image = s.image := (accept_keeps_image hc (e.symm.trans h)).trans (s.setHost_image rest)
      exact .inl (State.image_eq_iff.mp hkeeps)
    · obtain ⟨image, rfl⟩ := Command.eq_load_of_keepsImage hc
      exact .inr (.inr ⟨hb, image, rest, hh⟩)
  · have hkeeps : t.image = s.image := (advance_keeps_image (e.symm.trans h)).trans (s.setHost_image hs)
    exact .inl (State.image_eq_iff.mp hkeeps)

end Sys2Proof.Machine
end

section
/-!
The encoding (spec 30_encoding.md R51 to R62): the decoder and the encoder agree on every list of cells, the opcode
table's numbering of cells in a word (log 11) loses no bit of a field, and the assembler gives the cells of its lines
in order.
-/
namespace Sys2Proof

/-! ## The decoder, opcode by opcode (R52 to R57) -/

@[simp] theorem decode_add (cells : List Nat) : decode (1 :: cells) = decodeQuad Instr.add cells := rfl

@[simp] theorem decode_mul (cells : List Nat) : decode (2 :: cells) = decodeQuad Instr.mul cells := rfl

@[simp] theorem decode_halt (cells : List Nat) : decode (99 :: cells) = .instr .halt cells := rfl

theorem decode_unrecognized {op : Nat} (h : opcodeKind op = .unrecognized) (cells : List Nat) :
    decode (op :: cells) = .error .unrecognized := by
  rw [decode, h]

section
variable {mk : Nat → Nat → Nat → Instr} {cells : List Nat}

theorem eq_cons_of_decodeQuad {i : Instr} {rest : List Nat} (h : decodeQuad mk cells = .instr i rest) :
    ∃ a b d, i = mk a b d ∧ cells = a :: b :: d :: rest := by
  match cells, h with
  | a :: b :: d :: _, rfl => exact ⟨a, b, d, rfl, rfl⟩

/-- Format Q is tried only after its opcode is recognized; all it can lack is cells. -/
theorem decodeQuad_ne_unrecognized : decodeQuad mk cells ≠ .error .unrecognized := by
  unfold decodeQuad
  split <;> nofun

end

/-! ## Decoder and encoder agree -/

@[simp] theorem decode_encode_append (i : Instr) (rest : List Nat) : decode (encode i ++ rest) = .instr i rest := by
  cases i <;> rfl

theorem eq_encode_append_of_decode {cells : List Nat} {i : Instr} {rest : List Nat}
    (h : decode cells = .instr i rest) : cells = encode i ++ rest := by
  cases cells with
  | nil => cases h
  | cons op cells =>
    rcases Machine.opcodeKind_cases op with ⟨rfl, -⟩ | ⟨rfl, -⟩ | ⟨rfl, -⟩ | ⟨-, hk⟩
    · obtain ⟨a, b, d, rfl, rfl⟩ := eq_cons_of_decodeQuad h
      rfl
    · obtain ⟨a, b, d, rfl, rfl⟩ := eq_cons_of_decodeQuad h
      rfl
    · cases (decode_halt cells).symm.trans h
      rfl
    · cases (decode_unrecognized hk cells).symm.trans h

/-- Settles O2: the decoder undoes the encoder, and by the four opcode cases it answers on nothing else. -/
theorem decodesExactlyTheEncodings : Obligations.DecodesExactlyTheEncodings := fun _ i rest =>
  ⟨eq_encode_append_of_decode, fun h => h ▸ decode_encode_append i rest⟩

/-- Settles O3: for 1, 2 and 99 the verdict is an instruction or truncated. -/
theorem unrecognizedExactlyOtherOpcodes : Obligations.UnrecognizedExactlyOtherOpcodes := by
  intro op rest
  rcases Machine.opcodeKind_cases op with ⟨rfl, -⟩ | ⟨rfl, -⟩ | ⟨rfl, -⟩ | ⟨hne, hk⟩
  · simp [decodeQuad_ne_unrecognized]
  · simp [decodeQuad_ne_unrecognized]
  · simp
  · exact iff_of_true (decode_unrecognized hk rest) hne

/-! ## The opcode table's numbering (log 11) -/

theorem tableCell_packCells_zero {c : Nat} (hc : c < 2 ^ 64) (cells : List Nat) :
    tableCell (packCells (c :: cells)) 0 = c := by
  rw [tableCell, packCells, Nat.mul_zero, Nat.pow_zero, Nat.div_one, Nat.add_mul_mod_self_left]
  exact Nat.mod_eq_of_lt hc

theorem tableCell_packCells_succ {c : Nat} (hc : c < 2 ^ 64) (cells : List Nat) (k : Nat) :
    tableCell (packCells (c :: cells)) (k + 1) = tableCell (packCells cells) k := by
  have hrest : packCells (c :: cells) / 2 ^ 64 = packCells cells := by
    rw [packCells, Nat.add_mul_div_left _ _ (by decide), Nat.div_eq_of_lt hc, Nat.zero_add]
  rw [tableCell, tableCell, Nat.mul_succ, Nat.pow_add', ← Nat.div_div_eq_div_mul, hrest]

section
variable {cells : List Nat} (hcells : ∀ c ∈ cells, c < 2 ^ 64)
include hcells

theorem packCells_lt : packCells cells < 2 ^ (64 * cells.length) := by
  induction cells with
  | nil => exact Nat.one_pos
  | cons c cells ih =>
    obtain ⟨hc, hrest⟩ := List.forall_mem_cons.mp hcells
    have hlt := ih hrest
    rw [packCells, List.length_cons, Nat.mul_succ, Nat.pow_add']
    calc c + 2 ^ 64 * packCells cells
      _ < 2 ^ 64 * (packCells cells + 1) := by omega
      _ ≤ 2 ^ 64 * 2 ^ (64 * cells.length) := Nat.mul_le_mul_left _ hlt

/-- Beyond the packed cells a word reads 0. -/
theorem tableCell_packCells (k : Nat) : tableCell (packCells cells) k = cells.getD k 0 := by
  induction cells generalizing k with
  | nil => simp only [tableCell, packCells, Nat.zero_div, Nat.zero_mod, List.getD_nil]
  | cons c cells ih =>
    obtain ⟨hc, hrest⟩ := List.forall_mem_cons.mp hcells
    cases k with
    | zero => exact tableCell_packCells_zero hc cells
    | succ k => exact (tableCell_packCells_succ hc cells k).trans (ih hrest k)

/-- Four cells or fewer come back from their word, with zero cells after them. -/
theorem tableCells_packCells (hlen : cells.length ≤ 4) :
    tableCells 256 (packCells cells) = cells ++ List.replicate (4 - cells.length) 0 := by
  have hfits : packCells cells < 2 ^ 256 :=
    Nat.lt_of_lt_of_le (packCells_lt hcells) (Nat.pow_le_pow_right (by decide) (by omega))
  simp only [tableCells, Nat.mod_eq_of_lt hfits, tableCell_packCells hcells]
  match cells, hlen with
  | [], _ | [_], _ | [_, _], _ | [_, _, _], _ | [_, _, _, _], _ => rfl

end

theorem Params.standard_fits_iff (v : Nat) : Params.standard.fits v = true ↔ v < 2 ^ 64 := decide_eq_true_iff

/-- With W = 64 the cells of a well-formed instruction are cells of the table's numbering (R52, R58). -/
theorem Instr.lt_of_mem_encode {i : Instr} (h : i.wellFormed Params.standard = true) :
    ∀ c ∈ encode i, c < 2 ^ 64 := by
  have quad : ∀ {op a b d : Nat}, op < 2 ^ 64 →
      (Params.standard.fits a && Params.standard.fits b && Params.standard.fits d) = true →
      ∀ c ∈ [op, a, b, d], c < 2 ^ 64 := by
    simp +contextual [Params.standard_fits_iff]
  cases i with
  | add a b d => exact quad (by decide) h
  | mul a b d => exact quad (by decide) h
  | halt => decide

theorem encode_length_le (i : Instr) : (encode i).length ≤ 4 := by
  cases i <;> simp [encode]

/-- Settles O4: the word gives back the cells of the encoding, and the decoder reads the instruction from those whatever
cells follow. -/
theorem tableWordRoundTrip : Obligations.TableWordRoundTrip := by
  intro i hi
  have hcells := tableCells_packCells (Instr.lt_of_mem_encode hi) (encode_length_le i)
  rw [decodeTableWord, tableWord, hcells, decode_encode_append]

/-- Settles O6: the words of the three instructions are their table words; the others are closed facts. -/
theorem sampleWordsDecode : Obligations.SampleWordsDecode :=
  ⟨tableWordRoundTrip (.add 9 10 3) (by decide), tableWordRoundTrip (.mul 3 11 0) (by decide), by decide,
    decode_encode_append .halt [1, 2, 3], by decide⟩

/-! ## The assembler (R62) -/

theorem assemble_append (ls ms : List AsmLine) : assemble (ls ++ ms) = assemble ls ++ assemble ms := by
  induction ls with
  | nil => rfl
  | cons l ls ih => cases l <;> simp [assemble, ih]

/-- Settles O7: the cells of one line are its definition, and a leading instruction is decoded as it was encoded. -/
theorem assembledLinesAreConsecutive : Obligations.AssembledLinesAreConsecutive :=
  ⟨fun _ _ _ => ⟨rfl, rfl⟩, rfl, fun _ => rfl, assemble_append, fun i ls => decode_encode_append i (assemble ls)⟩

end Sys2Proof
end

section
/-!
ADD and MUL (spec 40_alu_add_mul.md R65 to R70; 60_exceptions.md R112, R115): the exact results and the faulting pairs, a
completed instruction with its frame, the whole of an instruction from the fetch on, and no OverflowFault with `W`
unbounded. The two instructions differ in the ALU function only, so each lemma is over that function.
-/
namespace Sys2Proof.Machine

/-! ## The ALU and the overflow test (40 R69, R70) -/

/-- With cells of `w` bits the overflow test compares the exact result with `2^w` (40 R69). -/
theorem checkResult_bits {s : State} {w : Nat} (hw : s.params.width = .bits w) (r : Nat) :
    checkResult r s = if r < 2 ^ w then .ok r s else .raised .overflow s := by
  by_cases hr : r < 2 ^ w <;> simp [checkResult, overflows, Params.fits, CellWidth.fits, hw, hr]

/-- Settles O18: the pairs that R70 names are those whose exact result is `2^w` or more. -/
theorem aluGivesExactResultOrOverflows : Obligations.AluGivesExactResultOrOverflows := by
  intro s w x y hw hx hy
  rw [checkResult_bits hw, checkResult_bits hw, aluAdd, aluMul]
  constructor
  · have hadd : y > 2 ^ w - 1 - x ↔ ¬x + y < 2 ^ w := by omega
    simp only [hadd, ite_not]
  · by_cases hzero : x = 0 ∨ y = 0
    · rw [if_pos hzero, Nat.mul_eq_zero.mpr hzero, if_pos (Nat.two_pow_pos w)]
    · have hxpos : 0 < x := by omega
      have hmul : y > (2 ^ w - 1) / x ↔ ¬x * y < 2 ^ w := by
        rw [gt_iff_lt, Nat.div_lt_iff_lt_mul hxpos, Nat.mul_comm y x]
        omega
      simp only [if_neg hzero, hmul, ite_not]

/-! ## A completed ADD or MUL, and swapped sources (40 R66 to R68) -/

/-- A completed ADD or MUL changes the destination cell and the cursor, nothing else. -/
theorem exec_computes_stores {i : Instr} {alu : Nat → Nat → Nat} {a b d va vb : Nat} {s : State}
    (hi : Instr.computes i alu a b d) (ha : a < s.len) (hb : b < s.len) (hd : d < s.len)
    (hva : s.mem.read a = some va) (hvb : s.mem.read b = some vb) (hf : s.params.fits (alu va vb) = true) :
    ∃ t, exec i s = .next t ∧ OneCellWritten d (alu va vb) s t ∧ t = { s with mem := t.mem, pc := s.pc + 4 } :=
  ⟨_, exec_computes_next hi ha hb hd hva hvb hf, oneCellWritten_setMem_write d (alu va vb) s, rfl⟩

/-- Settles O12: ADD computes with the sum. -/
theorem addStoresSum : Obligations.AddStoresSum := fun _ _ _ _ _ _ => exec_computes_stores (.inl ⟨rfl, rfl⟩)

/-- Settles O13: MUL computes with the product. -/
theorem mulStoresProduct : Obligations.MulStoresProduct := fun _ _ _ _ _ _ => exec_computes_stores (.inr ⟨rfl, rfl⟩)

/-- With both sources readable the body reads the two values only, so an ALU function that commutes on them hides
which field named which. -/
theorem computeAndStore_swap {alu : Nat → Nat → Nat} {a b d va vb : Nat} {s : State} (hcomm : alu va vb = alu vb va)
    (ha : a < s.len) (hb : b < s.len) (hva : s.mem.read a = some va) (hvb : s.mem.read b = some vb) :
    computeAndStore alu a b d s = computeAndStore alu b a d s := by
  rw [computeAndStore_sources ha hb hva hvb, computeAndStore_sources hb ha hvb hva, hcomm]

/-- Settles O19: addition and multiplication commute. -/
theorem swappedSourcesAgree : Obligations.SwappedSourcesAgree := fun _ _ _ _ x y ha hb hx hy =>
  ⟨congrArg conclude (computeAndStore_swap (Nat.add_comm x y) ha hb hx hy),
    congrArg conclude (computeAndStore_swap (Nat.mul_comm x y) ha hb hx hy)⟩

/-! ## The whole of ADD and MUL, from the fetch on (40 R65 to R67, 60 R115) -/

theorem State.read_eq_some_cell {s : State} {a : Nat} (hm : Memory.total s.len s.mem) (ha : a < s.len) :
    s.mem.read a = some (s.cell a) := by
  obtain ⟨v, hv⟩ := Memory.exists_read_of_total hm ha
  rw [State.cell, hv, Option.getD_some]

/-- The opcode of a four-cell instruction tells that three cells follow it (30 R59). -/
theorem operandCells_of_encode_quad {i : Instr} {op a b d : Nat} (hi : encode i = [op, a, b, d]) :
    operandCells op = 3 := by
  cases i with
  | add | mul => cases hi; rfl
  | halt => cases hi

/-- An ADD or MUL with an operand cell at `LEN` or beyond: the fetch raises BoundaryFault (40 R65). -/
theorem fetch_operands_beyond {s : State} {op : Nat} (hm : Memory.total s.len s.mem) (hpc : s.pc < s.len)
    (hop : s.mem.read s.pc = some op) (hcells : operandCells op = 3) (hend : s.len ≤ s.pc + 3) :
    ∃ l, fetch s = .raised .boundary (s.setIr l) := by
  rw [fetch, latchCell_ok hpc hop, Access.ok_andThen]
  rcases latchOperands_cases (s.setIr (s.ir.loadOp op)) with ⟨_, _, _, hlt, -⟩ | ⟨l, -, e, -⟩ | ⟨hu, -⟩
  · exact absurd hlt (Nat.not_lt.mpr hend)
  · exact ⟨l, by simp only [fetchRest, hcells, e, Access.raised_andThen]; rfl⟩
  · exact absurd hu (Memory.no_unwritten_of_total hm)

/-- In a memory that is total below `LEN` the other source of a source at `LEN` or beyond stops nothing. -/
theorem computeAndStore_source_beyond_of_total {alu : Nat → Nat → Nat} {a b d : Nat} {s : State}
    (hm : Memory.total s.len s.mem) (h : s.len ≤ a ∨ s.len ≤ b) : computeAndStore alu a b d s = .raised .boundary s := by
  apply computeAndStore_source_beyond
  by_cases ha : s.len ≤ a
  · exact .inl ha
  · exact .inr ⟨h.resolve_left ha, Memory.exists_read_of_total hm (Nat.not_le.mp ha)⟩

/-- A fault after any load of the latches differs from the state before in `ENG`, `STATUS` and the latches only. -/
theorem faultedBy_takeFault_setIr (k : FaultKind) (s : State) (l : Latches) :
    FaultedBy k s (takeFault k (s.setIr l)) := rfl

/-- `t` follows from the ADD or MUL at the cursor of `s`: its faults in the order they are tested (60 R115), else the
result stored and the cursor 4 further. -/
def ComputesAtCursor (alu : Nat → Nat → Nat) (s t : State) : Prop :=
  if s.len ≤ s.pc + 3 ∨ s.len ≤ s.cell (s.pc + 1) ∨ s.len ≤ s.cell (s.pc + 2) then FaultedBy .boundary s t
  else if s.params.fits (alu (s.cell (s.cell (s.pc + 1))) (s.cell (s.cell (s.pc + 2)))) = false then
    FaultedBy .overflow s t
  else if s.len ≤ s.cell (s.pc + 3) then FaultedBy .boundary s t
  else
    OneCellWritten (s.cell (s.pc + 3)) (alu (s.cell (s.cell (s.pc + 1))) (s.cell (s.cell (s.pc + 2)))) s t ∧
    t = { s with mem := t.mem, pc := s.pc + 4, ir := t.ir }

section
variable {i : Instr} {alu : Nat → Nat → Nat} {s : State} (hm : Memory.total s.len s.mem)
  (hi : Instr.computes i alu (s.cell (s.pc + 1)) (s.cell (s.pc + 2)) (s.cell (s.pc + 3)))
  (hcells : encode i = [s.cell s.pc, s.cell (s.pc + 1), s.cell (s.pc + 2), s.cell (s.pc + 3)])
include hm hi hcells

/-- An ADD or MUL whose four cells are below `LEN` is fetched, and its body runs. -/
theorem engineStep_computes (hend : s.pc + 3 < s.len) :
    engineStep s = conclude (computeAndStore alu (s.cell (s.pc + 1)) (s.cell (s.pc + 2)) (s.cell (s.pc + 3))
      (s.setIr (s.ir.load i))) := by
  have hread {k : Nat} (hk : k ≤ 3) : s.mem.read (s.pc + k) = some (s.cell (s.pc + k)) :=
    State.read_eq_some_cell hm (by omega)
  have hholds : s.holdsAtCursor i :=
    holdsAtCursor_quad (hread (Nat.zero_le 3)) hend (hread (by decide)) (hread (by decide)) (hread (by decide)) hcells
  rw [engineStep, engineStepOf_holdsAtCursor hholds, exec_computes hi]

/-- One case for each test: the operand cells, the sources, the overflow, the destination. -/
theorem engineStep_computesAtCursor (hpc : s.pc < s.len) :
    ∃ t, engineStep s = .next t ∧ ComputesAtCursor alu s t := by
  by_cases hend : s.len ≤ s.pc + 3
  · obtain ⟨l, e⟩ :=
      fetch_operands_beyond hm hpc (State.read_eq_some_cell hm hpc) (operandCells_of_encode_quad hcells) hend
    refine ⟨_, congrArg runFetched e, ?_⟩
    rw [ComputesAtCursor, if_pos (.inl hend)]
    exact faultedBy_takeFault_setIr .boundary s l
  rw [engineStep_computes hm hi hcells (Nat.not_le.mp hend)]
  by_cases hsrc : s.len ≤ s.cell (s.pc + 1) ∨ s.len ≤ s.cell (s.pc + 2)
  · refine ⟨_, congrArg conclude (computeAndStore_source_beyond_of_total (s := s.setIr (s.ir.load i)) hm hsrc), ?_⟩
    rw [ComputesAtCursor, if_pos (.inr hsrc)]
    exact faultedBy_takeFault_setIr .boundary s (s.ir.load i)
  have hreads := not_or.mpr ⟨hend, hsrc⟩
  obtain ⟨ha, hb⟩ : s.cell (s.pc + 1) < s.len ∧ s.cell (s.pc + 2) < s.len := by omega
  have hbody := computeAndStore_sources (alu := alu) (d := s.cell (s.pc + 3)) (s := s.setIr (s.ir.load i)) ha hb
    (State.read_eq_some_cell hm ha) (State.read_eq_some_cell hm hb)
  by_cases hf : s.params.fits (alu (s.cell (s.cell (s.pc + 1))) (s.cell (s.cell (s.pc + 2)))) = false
  · refine ⟨_, congrArg conclude (hbody.trans (if_pos hf)), ?_⟩
    rw [ComputesAtCursor, if_neg hreads, if_pos hf]
    exact faultedBy_takeFault_setIr .overflow s (s.ir.load i)
  by_cases hd : s.len ≤ s.cell (s.pc + 3)
  · refine ⟨_, congrArg conclude (hbody.trans ((if_neg hf).trans (if_pos hd))), ?_⟩
    rw [ComputesAtCursor, if_neg hreads, if_neg hf, if_pos hd]
    exact faultedBy_takeFault_setIr .boundary s (s.ir.load i)
  · refine ⟨_, congrArg conclude (hbody.trans ((if_neg hf).trans (if_neg hd))), ?_⟩
    rw [ComputesAtCursor, if_neg hreads, if_neg hf, if_neg hd]
    exact ⟨oneCellWritten_setMem_write _ _ s, rfl⟩

end

/-- Settles O14: the cells at a cursor that stands at a 1 are those of an ADD. -/
theorem addWholeRule : Obligations.AddWholeRule := fun _ hm hpc hop =>
  engineStep_computesAtCursor hm (.inl ⟨rfl, rfl⟩) (by rw [hop]; rfl) hpc

/-- Settles O15: the cells at a cursor that stands at a 2 are those of a MUL. -/
theorem mulWholeRule : Obligations.MulWholeRule := fun _ hm hpc hop =>
  engineStep_computesAtCursor hm (.inr ⟨rfl, rfl⟩) (by rw [hop]; rfl) hpc

/-! ## `W` unbounded (40 R69, 60 R112) -/

theorem Params.fits_of_unbounded {p : Params} (hp : p.width = .unbounded) (v : Nat) : p.fits v = true := by
  rw [Params.fits, hp, CellWidth.fits]

theorem FaultKind.cause_ne_overflow {k : FaultKind} (hk : k ≠ .overflow) : k.cause ≠ .overflow := by
  cases k with
  | processing | boundary => exact Cause.noConfusion
  | overflow => exact absurd rfl hk

/-- The injection raises BoundaryFault at most (42 R94). -/
theorem beginIteration_cause_ne_overflow {s : State} (hs : s.status.cause ≠ .overflow) (n v : Nat) :
    (beginIteration n v s).status.cause ≠ .overflow := by
  rcases beginIteration_cases n v s with ⟨-, e⟩ | ⟨-, e⟩ | ⟨-, e⟩ <;> rw [e]
  · exact Cause.noConfusion
  · exact Cause.noConfusion
  · exact hs

theorem judge_cause_ne_overflow {s : State} (hs : s.status.cause ≠ .overflow) :
    (judge s).status.cause ≠ .overflow := by
  rcases judge_cases s with ⟨-, e⟩ | ⟨-, -, e⟩ | ⟨-, -, -, e⟩ | ⟨-, -, -, e⟩ <;> rw [e]
  · exact Cause.noConfusion
  · exact beginIteration_cause_ne_overflow (s := setPair s.noun (s.verb + 1) s) hs s.noun (s.verb + 1)
  · exact beginIteration_cause_ne_overflow (s := setPair (s.noun + 1) 0 s) hs (s.noun + 1) 0
  · exact Cause.noConfusion

section
variable {s t : State} (hs : s.status.cause ≠ .overflow)
include hs

theorem accept_cause_ne_overflow {c : Command} (h : accept c s = .next t) : t.status.cause ≠ .overflow := by
  rcases accept_cases c s with
    ⟨_, -, -, e⟩ | ⟨_, -, -, e⟩ | ⟨-, e⟩ | ⟨_, _, -, -, -, e⟩ | ⟨_, _, -, -, e⟩ | ⟨_, -, e⟩ <;>
    cases e.symm.trans h
  · exact Cause.noConfusion
  · exact hs
  · exact Cause.noConfusion
  · exact beginIteration_cause_ne_overflow Cause.noConfusion _ _
  · exact beginIteration_cause_ne_overflow Cause.noConfusion _ _

theorem endOfRun_cause_ne_overflow (h : endOfRun s = .next t) : t.status.cause ≠ .overflow := by
  rcases endOfRun_cases s with ⟨-, e⟩ | ⟨-, _, -, e⟩ | ⟨-, v, -, e⟩ | ⟨-, e⟩ | ⟨-, e⟩ <;> cases e.symm.trans h
  · exact Cause.noConfusion
  · exact Cause.noConfusion
  · exact judge_cause_ne_overflow (s := s.setOut v) hs

/-- The one place where OverflowFault is raised; it needs a result that does not fit. -/
theorem engineStep_cause_ne_overflow (hw : s.params.width = .unbounded) (h : engineStep s = .next t) :
    t.status.cause ≠ .overflow := by
  rcases engineStep_cases s with
    ⟨_, _, _, _, _, _, _, -, -, -, -, -, -, -, -, e⟩ | ⟨-, e⟩ | ⟨k, _, e, -, hk⟩ | ⟨-, e⟩ <;> cases e.symm.trans h
  · exact hs
  · exact hs
  · refine FaultKind.cause_ne_overflow fun hover => ?_
    obtain ⟨r, hr⟩ := hk hover
    cases hr.symm.trans (Params.fits_of_unbounded hw r)

theorem advance_cause_ne_overflow (hw : s.params.width = .unbounded) (h : advance s = .next t) :
    t.status.cause ≠ .overflow := by
  rcases advance_cases s with ⟨-, -, e⟩ | ⟨-, -, e⟩ | ⟨-, -, -, e⟩ | ⟨-, e⟩
  · exact engineStep_cause_ne_overflow hs hw (e.symm.trans h)
  · exact endOfRun_cause_ne_overflow hs (e.symm.trans h)
  · cases e.symm.trans h
  · cases e.symm.trans h
    exact hs

end

/-- Settles O25: a reset and a command taken up raise no OverflowFault whatever the width, and with `W` unbounded no
result of an engine step is too wide. -/
theorem noOverflowWhenUnbounded : Obligations.NoOverflowWhenUnbounded := by
  intro s t hw hs h
  rcases step_cases s with ⟨rest, -, e⟩ | ⟨c, rest, -, -, e⟩ | ⟨-, rest, e⟩
  · cases e.symm.trans h
    exact Cause.noConfusion
  · exact accept_cause_ne_overflow (s := s.setHost rest) hs (e.symm.trans h)
  · exact advance_cause_ne_overflow (s := s.setHost rest) hs hw (e.symm.trans h)

end Sys2Proof.Machine
end

section
/-!
The dispatch, HALT and the cursor (spec 41_dispatch_halt_cursor.md R75 to R84; 30_encoding.md R53, R57, R59): a step of a
run in progress runs the instruction at the cursor, HALT and the faults of the opcode fetch, the cursor's advance, and the
bound on the length of a run.
-/
namespace Sys2Proof.Machine

/-! ## A step of a run in progress (41 R75) -/

/-- A quiet host leaves its mark on the pending moves only. -/
theorem State.afterQuiet_eq_setHost (s : State) : s.afterQuiet = s.setHost s.afterQuiet.host := by
  unfold State.afterQuiet
  split <;> rfl

@[simp] theorem State.afterQuiet_ir (s : State) : s.afterQuiet.ir = s.ir :=
  (congrArg State.ir s.afterQuiet_eq_setHost :)

@[simp] theorem State.afterQuiet_pc (s : State) : s.afterQuiet.pc = s.pc :=
  (congrArg State.pc s.afterQuiet_eq_setHost :)

@[simp] theorem State.afterQuiet_eng (s : State) : s.afterQuiet.eng = s.eng :=
  (congrArg State.eng s.afterQuiet_eq_setHost :)

@[simp] theorem State.afterQuiet_status (s : State) : s.afterQuiet.status = s.status :=
  (congrArg State.status s.afterQuiet_eq_setHost :)

theorem State.holdsAtCursor_afterQuiet {s : State} {i : Instr} (h : s.holdsAtCursor i) :
    s.afterQuiet.holdsAtCursor i := by
  rw [s.afterQuiet_eq_setHost]
  exact h

theorem advance_running {s : State} (hb : s.status.state = .busy) (he : s.eng = .running) :
    advance s = engineStep s := by
  simp only [advance, hb, he]

/-- While the block is `BUSY` a command of the host waits, so without RESET the block moves by itself (42 R107). -/
theorem step_busy {s : State} (hb : s.status.state = .busy) (hh : s.host.head? ≠ some .reset) :
    step s = advance s.afterQuiet := by
  rcases hhost : s.host with _ | ⟨_ | _ | c, rest⟩
  · simp only [step, blockStep, State.afterQuiet, hhost]
  · simp only [step, blockStep, State.afterQuiet, hhost]
  · simp [hhost] at hh
  · simp only [step, blockStep, State.afterQuiet, hhost, if_pos hb]

section
variable {s : State} (hb : s.status.state = .busy) (he : s.eng = .running) (hh : s.host.head? ≠ some .reset)
include hb he hh

theorem step_running : step s = engineStep s.afterQuiet :=
  (step_busy hb hh).trans (advance_running (by simpa using hb) (by simpa using he))

/-- The step runs the instruction whose cells stand at the cursor, with those cells in the latches. -/
theorem step_holdsAtCursor {i : Instr} (h : s.holdsAtCursor i) :
    step s = exec i (s.afterQuiet.setIr (s.ir.load i)) := by
  rw [step_running hb he hh, engineStep, engineStepOf_holdsAtCursor (State.holdsAtCursor_afterQuiet h),
    State.afterQuiet_ir]

end

/-- What the window decodes to stands at the cursor: the decoder reads it from the cells that encode it. -/
theorem State.holdsAtCursor_of_decode_window {s : State} {i : Instr} {rest : List Nat}
    (h : decode s.window = .instr i rest) : s.holdsAtCursor i :=
  cellsFrom_prefix 4 s.pc (eq_encode_append_of_decode h)

/-- Settles O1: the cells that decode to `i` stand at the cursor. -/
theorem stepRunsDecodedInstruction : Obligations.StepRunsDecodedInstruction := fun _ _ _ hb he hh h =>
  step_holdsAtCursor hb he hh (State.holdsAtCursor_of_decode_window h)

/-! ## An instruction placed at the cursor (log 11) -/

/-- Cells that begin with an encoding, placed at the cursor, are the cells of that instruction. -/
theorem holdsAtCursor_placeAtCursor (s : State) (i : Instr) (rest : List Nat) :
    (placeAtCursor s (encode i ++ rest)).holdsAtCursor i := by
  intro k c hk
  obtain ⟨hlt, -⟩ := List.getElem?_eq_some_iff.mp hk
  constructor
  · show s.pc + k < max s.len (s.pc + (encode i ++ rest).length)
    rw [List.length_append]
    omega
  · show (s.mem.writeCells s.pc (encode i ++ rest)).read (s.pc + k) = some c
    rw [Memory.read_writeCells, if_neg (by omega), Nat.add_sub_cancel_left, List.getElem?_append_left hlt, hk,
      Option.some_or]

/-- Settles O5: the word gives back the cells of the encoding, and the placed state is that of a run in progress with
no move of the host pending. -/
theorem placedInstructionRunsNext : Obligations.PlacedInstructionRunsNext := by
  intro s i hi
  have hcells := tableCells_packCells (Instr.lt_of_mem_encode hi) (encode_length_le i)
  have hholds : (s.withFetchWord 256 (tableWord i)).holdsAtCursor i := by
    rw [State.withFetchWord, tableWord, hcells]
    exact holdsAtCursor_placeAtCursor s i _
  have hquiet : (s.withFetchWord 256 (tableWord i)).host.head? ≠ some .reset := (Option.some_ne_none _).symm
  exact step_holdsAtCursor rfl rfl hquiet hholds

/-! ## HALT (41 R78) -/

/-- Settles O16: HALT writes `ENG`. -/
theorem haltStopsTheEngine : Obligations.HaltStopsTheEngine := fun _ => rfl

/-- The encoding of HALT is one cell (30 R53). -/
theorem holdsAtCursor_halt {s : State} (h : s.pc < s.len) (hv : s.mem.read s.pc = some 99) :
    s.holdsAtCursor .halt := by
  intro k c hk
  cases k with
  | zero => exact ⟨h, hv.trans hk⟩
  | succ k => cases hk

/-- Settles O17: the one cell of HALT stands at the cursor, whatever follows. -/
theorem haltReadsOneCell : Obligations.HaltReadsOneCell := fun _ h hv =>
  ⟨_, engineStepOf_holdsAtCursor (holdsAtCursor_halt h hv), rfl, rfl⟩

/-! ## The faults of the opcode fetch (41 R76, R79) -/

/-- A fault raised by the fetch is taken; the fetch has changed the latches at most. -/
theorem engineStep_of_fetch_raised {s : State} {k : FaultKind} {l : Latches} (h : fetch s = .raised k (s.setIr l)) :
    ∃ t, engineStep s = .next t ∧ FaultedBy k s t :=
  ⟨_, congrArg runFetched h, faultedBy_takeFault_setIr k s l⟩

/-- An unrecognized opcode is the only cell read (30 R57, R59). -/
theorem fetch_unrecognized {s : State} {op : Nat} (h : s.pc < s.len) (hv : s.mem.read s.pc = some op)
    (hk : opcodeKind op = .unrecognized) : fetch s = .raised .processing (s.setIr (s.ir.loadOp op)) := by
  rw [fetch, latchCell_ok h hv, Access.ok_andThen]
  simp only [fetchRest, operandCells, hk, decodeLatched, decode_unrecognized hk, decodeFault]

/-- Settles O22: such an opcode falls under the fourth case of the opcode map. -/
theorem unrecognizedRaisesProcessingError : Obligations.UnrecognizedRaisesProcessingError := by
  intro s op h hv h1 h2 h99
  have hk : opcodeKind op = .unrecognized := by rw [opcodeKind, if_neg h1, if_neg h2, if_neg h99]
  exact engineStep_of_fetch_raised (fetch_unrecognized h hv hk)

/-- An opcode fetch at `LEN` or beyond loads no latch. -/
theorem fetch_beyond {s : State} (h : s.len ≤ s.pc) : fetch s = .raised .boundary s := by
  rw [fetch, latchCell, memRead_beyond h, Access.raised_andThen, Access.raised_andThen]

/-- Settles O23: the checked read of the opcode cell raises the fault. -/
theorem fetchPastTheEndFaults : Obligations.FetchPastTheEndFaults := fun s h =>
  engineStep_of_fetch_raised (l := s.ir) (fetch_beyond h)

/-! ## The cursor (41 R80, R81) -/

/-- An engine step either completes an ADD or MUL, whose four cells are below `LEN`, or ends the run. -/
theorem engineStep_advances_or_ends {s t : State} (he : s.eng = .running) (h : engineStep s = .next t) :
    (t.eng = .running ∧ t.pc = s.pc + 4 ∧ s.pc + 3 < s.len) ∨ ((t.eng = .halted ∨ t.eng = .faulted) ∧ t.pc = s.pc) := by
  rcases engineStep_cases s with
    ⟨_, _, _, _, _, _, _, hi, hc, -, -, -, -, -, -, e⟩ | ⟨-, e⟩ | ⟨_, _, e, -, -⟩ | ⟨-, e⟩ <;> cases e.symm.trans h
  · exact .inl ⟨he, rfl, holdsAtCursor_computes hi hc⟩
  · exact .inr ⟨.inl rfl, rfl⟩
  · exact .inr ⟨.inr rfl, rfl⟩

theorem Engine.ne_running_of_ended {e : Engine} (h : e = .halted ∨ e = .faulted) : e ≠ .running := by
  rcases h with rfl | rfl <;> exact Engine.noConfusion

/-- Settles O43: the step of a run in progress is an engine step. -/
theorem cursorAdvancesOrRunEnds : Obligations.CursorAdvancesOrRunEnds := by
  intro s t hb he hh h
  have hstep : engineStep s.afterQuiet = .next t := (step_running hb he hh).symm.trans h
  rcases engineStep_advances_or_ends (s.afterQuiet_eng.trans he) hstep with ⟨hrun, hpc, -⟩ | ⟨hend, hpc⟩
  · exact .inl ⟨hrun, by simpa using hpc⟩
  · exact .inr ⟨Engine.ne_running_of_ended hend, by simpa using hpc⟩

/-! ## The length of a run (41 R83, R84) -/

theorem engineStep_keeps_total {s t : State} (hm : Memory.total s.len s.mem) (h : engineStep s = .next t) :
    Memory.total t.len t.mem := by
  rcases engineStep_cases s with
    ⟨_, _, _, _, _, _, _, -, -, -, -, -, -, -, -, e⟩ | ⟨-, e⟩ | ⟨_, _, e, -, -⟩ | ⟨-, e⟩ <;> cases e.symm.trans h
  · exact Memory.total_write hm _ _
  · exact hm
  · exact hm

/-- The loop does nothing once the run has ended. -/
theorem engineLoop_of_not_running {s : State} (h : s.eng ≠ .running) (n : Nat) : engineLoop n s = .next s := by
  cases n with
  | zero => rfl
  | succ n => exact if_neg h

theorem engineLoop_succ_running {s t : State} (he : s.eng = .running) (h : engineStep s = .next t) (n : Nat) :
    engineLoop (n + 1) s = engineLoop n t := by
  rw [engineLoop, if_pos he, h, onNext]

/-- A run with fewer than `4 * n` cells left ends within `n` steps: each step that does not end it uses up four. -/
theorem engineLoop_ends (n : Nat) {s : State} (hm : Memory.total s.len s.mem) (he : s.eng = .running)
    (hn : s.len - s.pc < 4 * n) : ∃ t, engineLoop n s = .next t ∧ (t.eng = .halted ∨ t.eng = .faulted) := by
  induction n generalizing s with
  | zero => exact absurd hn (Nat.not_lt_zero _)
  | succ n ih =>
    obtain ⟨t, ht⟩ := engineStep_moves hm
    rw [engineLoop_succ_running he ht]
    rcases engineStep_advances_or_ends he ht with ⟨hrun, hpc, hlt⟩ | ⟨hend, -⟩
    · have hlen : t.len = s.len := (State.image_eq_iff.mp (engineStep_keeps_image ht)).2
      exact ih (engineStep_keeps_total hm ht) hrun (by omega)
    · exact ⟨t, engineLoop_of_not_running (Engine.ne_running_of_ended hend) n, hend⟩

/-- Settles O50: the fuel covers the cells from the cursor to `LEN`. -/
theorem runEndsWithinFuel : Obligations.RunEndsWithinFuel := fun s hm he =>
  engineLoop_ends ((s.len - s.pc) / 4 + 1) hm he (by omega)

end Sys2Proof.Machine
end

section
/-!
The beginning of a command (spec 42_run_exec_search.md R88 to R96, R107): `Restore()`, the injection, and what the step
that takes up each command writes.
-/
namespace Sys2Proof.Machine

/-! ## `Restore()` and the injection (42 R93, R94) -/

theorem restore_read_below {a : Nat} {s : State} (ha : a < s.len) : (restore s).mem.read a = s.snap.read a := by
  rw [restore_mem, Memory.read_copyBelow, if_pos ha]

theorem restore_read_beyond {a : Nat} {s : State} (ha : s.len ≤ a) : (restore s).mem.read a = s.mem.read a := by
  rw [restore_mem, Memory.read_copyBelow, if_neg (Nat.not_lt.mpr ha)]

/-- Settles O10: below `LEN` the copy reads as its source, beyond as its destination. -/
theorem restoreCopiesSnapshot : Obligations.RestoreCopiesSnapshot := fun _ =>
  ⟨fun _ => restore_read_below, fun _ => restore_read_beyond, rfl⟩

/-- The memory after both writes of an injection. -/
theorem Memory.read_injected (m : Memory) (n v a : Nat) :
    ((m.write 1 n).write 2 v).read a = if a = 2 then some v else if a = 1 then some n else m.read a := by
  rw [Memory.read_write, Memory.read_write]

/-- Settles O11: the cases of the injection are told apart by `LEN`. -/
theorem injectWritesNounAndVerb : Obligations.InjectWritesNounAndVerb := by
  intro n v s
  rcases inject_cases n v s with ⟨hl, e⟩ | ⟨hl, e⟩ | ⟨hl, e⟩
  · exact ⟨fun _ => e, fun h => by omega, fun h => by omega⟩
  · exact ⟨fun h => by omega, fun _ => ⟨_, e, oneCellWritten_setMem_write 1 n s, rfl⟩, fun h => by omega⟩
  · refine ⟨fun h => by omega, fun h => by omega, fun _ => ⟨_, e, ?_, ?_, ?_, rfl⟩⟩
    · exact Memory.read_injected s.mem n v 1
    · exact Memory.read_injected s.mem n v 2
    · intro z h1 h2
      exact (Memory.read_injected s.mem n v z).trans ((if_neg h2).trans (if_neg h1))

/-! ## The beginning of an iteration (42 R95) -/

section
variable (n v : Nat) (s : State)

theorem beginIteration_frame : beginIteration n v s = { s with
    mem := (beginIteration n v s).mem, pc := 0, eng := (beginIteration n v s).eng,
    status := (beginIteration n v s).status } := by
  rcases beginIteration_cases n v s with ⟨-, e⟩ | ⟨-, e⟩ | ⟨-, e⟩ <;> rw [e] <;> rfl

@[simp] theorem beginIteration_snap : (beginIteration n v s).snap = s.snap :=
  (congrArg State.snap (beginIteration_frame n v s) :)

@[simp] theorem beginIteration_len : (beginIteration n v s).len = s.len :=
  (congrArg State.len (beginIteration_frame n v s) :)

@[simp] theorem beginIteration_pc : (beginIteration n v s).pc = 0 :=
  (congrArg State.pc (beginIteration_frame n v s) :)

@[simp] theorem beginIteration_target : (beginIteration n v s).target = s.target :=
  (congrArg State.target (beginIteration_frame n v s) :)

@[simp] theorem beginIteration_noun : (beginIteration n v s).noun = s.noun :=
  (congrArg State.noun (beginIteration_frame n v s) :)

@[simp] theorem beginIteration_verb : (beginIteration n v s).verb = s.verb :=
  (congrArg State.verb (beginIteration_frame n v s) :)

@[simp] theorem beginIteration_result : (beginIteration n v s).result = s.result :=
  (congrArg State.result (beginIteration_frame n v s) :)

@[simp] theorem beginIteration_out : (beginIteration n v s).out = s.out :=
  (congrArg State.out (beginIteration_frame n v s) :)

@[simp] theorem beginIteration_host : (beginIteration n v s).host = s.host :=
  (congrArg State.host (beginIteration_frame n v s) :)

variable {n v s}

/-- An image of fewer than 3 cells lacks a cell to inject into. -/
theorem beginIteration_of_short (h : s.len < 3) : (beginIteration n v s).eng = .faulted ∧
    (beginIteration n v s).status = { state := .error, cause := .boundary, op := s.status.op, found := false } := by
  rcases beginIteration_cases n v s with ⟨-, e⟩ | ⟨-, e⟩ | ⟨hl, -⟩
  · exact e ▸ ⟨rfl, rfl⟩
  · exact e ▸ ⟨rfl, rfl⟩
  · omega

theorem beginIteration_of_long (h : 3 ≤ s.len) :
    beginIteration n v s = (restore s).setMem (((restore s).mem.write 1 n).write 2 v) := by
  rcases beginIteration_cases n v s with ⟨hl, -⟩ | ⟨hl, -⟩ | ⟨-, e⟩
  · omega
  · omega
  · exact e

theorem beginIteration_running (h : 3 ≤ s.len) :
    (beginIteration n v s).eng = .running ∧ (beginIteration n v s).status = s.status := by
  rw [beginIteration_of_long h]
  exact ⟨rfl, rfl⟩

/-- The engine's memory at the start of an iteration: the snapshot with the pair injected. -/
theorem beginIteration_read {a : Nat} (h : 3 ≤ s.len) (ha : a < s.len) : (beginIteration n v s).mem.read a =
    if a = 2 then some v else if a = 1 then some n else s.snap.read a := by
  rw [beginIteration_of_long h, State.setMem_mem, Memory.read_injected, restore_read_below ha]

theorem beginIteration_injected (h : 3 ≤ s.len) : (beginIteration n v s).mem.read 1 = some n ∧
    (beginIteration n v s).mem.read 2 = some v ∧
    ∀ a, a < s.len → a ≠ 1 → a ≠ 2 → (beginIteration n v s).mem.read a = s.snap.read a :=
  ⟨beginIteration_read h (by omega), beginIteration_read h (by omega),
    fun _ ha h1 h2 => (beginIteration_read h ha).trans ((if_neg h2).trans (if_neg h1))⟩

variable (n v s)

/-- The two ways in which an iteration can begin. -/
theorem beginIteration_short_or_long :
    (s.len < 3 → (beginIteration n v s).eng = .faulted ∧
      (beginIteration n v s).status = { state := .error, cause := .boundary, op := s.status.op, found := false }) ∧
    (3 ≤ s.len → (beginIteration n v s).eng = .running ∧ (beginIteration n v s).status = s.status ∧
      (beginIteration n v s).mem.read 1 = some n ∧ (beginIteration n v s).mem.read 2 = some v ∧
      ∀ a, a < s.len → a ≠ 1 → a ≠ 2 → (beginIteration n v s).mem.read a = s.snap.read a) :=
  ⟨beginIteration_of_short, fun h =>
    ⟨(beginIteration_running h).1, (beginIteration_running h).2, beginIteration_injected h⟩⟩

end

/-! ## The step that takes up a command (42 R87, R107) -/

theorem step_issue {s : State} {c : Command} {rest : List HostMove} (hb : s.status.state ≠ .busy)
    (hh : s.host = .issue c :: rest) : step s = accept c (s.setHost rest) := by
  simp only [step, blockStep, hh, if_neg hb]

theorem step_issue_busy {s : State} {c : Command} {rest : List HostMove} (hb : s.status.state = .busy)
    (hh : s.host = .issue c :: rest) : step s = advance s := by
  simp only [step, blockStep, hh, if_pos hb]

/-- Settles O33: the step looks at the next move of the host and at `STATUS.STATE`. -/
theorem commandsWaitForNotBusy : Obligations.CommandsWaitForNotBusy := fun _ _ _ hh =>
  ⟨fun hb => step_issue hb hh, fun hb => step_issue_busy hb hh⟩

/-- Settles O34: what an accepted LOAD leaves in `SNAP` reads as the image below its length. -/
theorem loadWritesSnapshotAndLength : Obligations.LoadWritesSnapshotAndLength := by
  intro s image rest hb hh hlen hfits
  have haccepted : loadAccepted s.params image = true := (loadAccepted_iff _ _).mpr ⟨hlen, hfits⟩
  refine ⟨load image (s.setHost rest), (step_issue hb hh).trans (if_pos haccepted), ?_, ?_, rfl⟩
  · intro i hi
    exact (Memory.read_image s.snap image i).trans (if_pos hi)
  · intro i hi
    exact (Memory.read_image s.snap image i).trans (if_neg (Nat.not_lt.mpr hi))

/-- Settles O35: such an image is not accepted. -/
theorem refusedLoadChangesNothing : Obligations.RefusedLoadChangesNothing := by
  intro s image rest hb hh hbad
  have hrefused : ¬loadAccepted s.params image = true := by
    rw [loadAccepted_iff]
    rintro ⟨hlen, hfits⟩
    rcases hbad with hlong | ⟨v, hv, hwide⟩
    · omega
    · cases (hfits v hv).symm.trans hwide
  exact (step_issue hb hh).trans (if_neg hrefused)

/-- Settles O36: taking up a RUN is a write of `STATUS` and a restore. -/
theorem runBeginsWithRestore : Obligations.RunBeginsWithRestore := fun _ _ hb hh =>
  ⟨_, step_issue hb hh, fun _ ha => restore_read_below ha, rfl⟩

/-- Settles O37: taking up an EXEC writes the registers and begins the iteration of its arguments. -/
theorem execBeginsWithInjection : Obligations.ExecBeginsWithInjection := by
  intro s n v rest hb hh hn hv
  have hbegun : step s = .next (beginExec n v (s.setHost rest)) := by
    rw [step_issue hb hh, accept, State.setHost_params, hn, hv]
    rfl
  exact ⟨_, hbegun, beginIteration_frame n v _,
    beginIteration_short_or_long n v (setPair n v ((s.setHost rest).setStatus (Status.inProgress .exec)))⟩

/-- Settles O39: taking up a SEARCH writes the registers and begins the iteration of the pair (0, 0). -/
theorem searchBeginsAtFirstPair : Obligations.SearchBeginsAtFirstPair := fun s g rest hb hh =>
  ⟨_, step_issue hb hh, beginIteration_frame 0 0 _,
    beginIteration_short_or_long 0 0 (setPair 0 0 (startSearch g (s.setHost rest)))⟩

end Sys2Proof.Machine
end

section
/-!
The end of a run (spec 42_run_exec_search.md R89, R95 to R101): the sequencer's move after a HALT, the order of the
pairs, and the one assignment to `RESULT`.
-/
namespace Sys2Proof.Machine

/-! ## The order of the pairs (42 R97) -/

theorem pairAt_add {v : Nat} (hv : v < 99) (n : Nat) : pairAt (99 * n + v) = (n, v) := by
  rw [pairAt, Nat.mul_add_div (by decide), Nat.mul_add_mod, Nat.div_eq_of_lt hv, Nat.mod_eq_of_lt hv, Nat.add_zero]

/-- The pairs of the first `m` nouns, row by row. -/
theorem flatMap_rows_eq_map_pairAt (m : Nat) :
    ((List.range m).flatMap fun n => (List.range 99).map fun v => (n, v)) = (List.range (99 * m)).map pairAt := by
  induction m with
  | zero => rfl
  | succ m ih =>
    have hrow : (List.range 99).map (fun v => (m, v)) = (List.range 99).map (fun v => pairAt (99 * m + v)) :=
      List.map_congr_left fun v hv => (pairAt_add (List.mem_range.mp hv) m).symm
    rw [List.range_succ (n := m), List.flatMap_append, ih, List.flatMap_singleton, hrow, Nat.mul_succ, List.range_add,
      List.map_append, List.map_map]
    rfl

theorem searchPairs_eq_map_pairAt : searchPairs = (List.range 9801).map pairAt := flatMap_rows_eq_map_pairAt 99

theorem searchPairs_length : searchPairs.length = 9801 := by
  rw [searchPairs_eq_map_pairAt, List.length_map, List.length_range]

theorem searchPairs_getElem? {k : Nat} (hk : k < 9801) : searchPairs[k]? = some (pairAt k) := by
  rw [searchPairs_eq_map_pairAt, List.getElem?_map, List.getElem?_range hk, Option.map_some]

/-- Settles O42: the list is that of the pair numbers below 9801, each with its pair. -/
theorem pairsAreRowMajor : Obligations.PairsAreRowMajor := ⟨searchPairs_length, fun _ => searchPairs_getElem?⟩

/-! ## The next iteration of a search (42 R97, R99) -/

section
variable {s : State} {k : Nat} (hpair : (s.noun, s.verb) = pairAt k)
include hpair

theorem nextIteration_of_lt (hk : k + 1 < 9801) : nextIteration s =
    beginIteration (pairAt (k + 1)).1 (pairAt (k + 1)).2 (setPair (pairAt (k + 1)).1 (pairAt (k + 1)).2 s) := by
  obtain ⟨hn, hv⟩ := Prod.mk.inj hpair
  by_cases hrow : s.verb + 1 < 99
  · have hnumber : k + 1 = 99 * s.noun + (s.verb + 1) := by omega
    have hnext : pairAt (k + 1) = (s.noun, s.verb + 1) := hnumber ▸ pairAt_add hrow s.noun
    rw [nextIteration, if_pos hrow, hnext]
  · have hnumber : k + 1 = 99 * (s.noun + 1) + 0 := by omega
    have hnext : pairAt (k + 1) = (s.noun + 1, 0) := hnumber ▸ pairAt_add (by decide) (s.noun + 1)
    rw [nextIteration, if_neg hrow, if_pos (show s.noun + 1 < 99 by omega), hnext]

theorem nextIteration_of_last (hk : k + 1 = 9801) :
    nextIteration s = s.setStatus (Status.completed .search false) := by
  obtain ⟨hn, hv⟩ := Prod.mk.inj hpair
  rw [nextIteration, if_neg (show ¬s.verb + 1 < 99 by omega), if_neg (show ¬s.noun + 1 < 99 by omega)]

end

/-! ## The sequencer's move after a HALT (42 R89, R95, R96) -/

section
variable {s : State} (hb : s.status.state = .busy) (he : s.eng = .halted) (hh : s.host = [])
include hb he hh

theorem step_halted : step s = endOfRun s := by
  simp only [step, blockStep, hh, advance, hb, he]

theorem step_halted_run (hop : s.status.op = .run) : step s = .next (s.setStatus (Status.completed .run false)) := by
  rw [step_halted hb he hh, endOfRun, hop]

theorem step_halted_exec (hop : s.status.op = .exec) {v : Nat} (hv : s.mem.read 0 = some v) :
    step s = .next ((s.setOut v).setStatus (Status.completed .exec false)) := by
  rw [step_halted hb he hh, endOfRun, hop]
  simp only [collectOut, hv]

theorem step_halted_search (hop : s.status.op = .search) {v : Nat} (hv : s.mem.read 0 = some v) :
    step s = .next (judge (s.setOut v)) := by
  rw [step_halted hb he hh, endOfRun, hop]
  simp only [collectOut, hv]

end

/-- Settles O40: the sequencer's move for each of the two commands. -/
theorem haltedRunAndExecComplete : Obligations.HaltedRunAndExecComplete := fun _ hb he hh =>
  ⟨step_halted_run hb he hh, fun _ hop hv => step_halted_exec hb he hh hop hv⟩

/-- Settles O41: the pair in progress has number `99 * noun + verb`, and the next one is begun unless it is 9801. -/
theorem searchJudgesEachIteration : Obligations.SearchJudgesEachIteration := by
  intro s v hb he hh hop hv hn hverb hlen
  have hstep := step_halted_search hb he hh hop hv
  have hpair : ((s.setOut v).noun, (s.setOut v).verb) = pairAt (99 * s.noun + s.verb) := (pairAt_add hverb s.noun).symm
  have hnext (hne : v ≠ s.target) : judge (s.setOut v) = nextIteration (s.setOut v) := if_neg hne
  refine ⟨fun heq => ?_, fun hne hlast => ?_, fun hne hmore => ?_⟩
  · exact hstep.trans (congrArg Host.Outcome.next (if_pos heq))
  · rw [hstep, hnext hne, nextIteration_of_last hpair (by omega)]
    rfl
  · rw [hnext hne, nextIteration_of_lt hpair (by omega)] at hstep
    obtain ⟨heng, hstatus, h1, h2, hrest⟩ := (beginIteration_short_or_long (pairAt (99 * s.noun + s.verb + 1)).1
      (pairAt (99 * s.noun + s.verb + 1)).2 (setPair _ _ (s.setOut v))).2 hlen
    refine ⟨_, hstep, ?_, ?_, ?_, hrest, ?_⟩
    · simp
    · simpa using h1
    · simpa using h2
    · refine (beginIteration_frame _ _ _).trans ?_
      rw [heng, hstatus]
      simp only [beginIteration_noun, beginIteration_verb]
      rfl

/-! ## The assignment to `RESULT` (42 R101) -/

theorem accept_result {c : Command} {s t : State} (h : accept c s = .next t) :
    t.result = s.result ∨ t.result = SearchResult.reset := by
  rcases accept_cases c s with
    ⟨_, -, -, e⟩ | ⟨_, -, -, e⟩ | ⟨-, e⟩ | ⟨_, _, -, -, -, e⟩ | ⟨_, _, -, -, e⟩ | ⟨_, -, e⟩ <;>
    cases e.symm.trans h
  · exact .inr rfl
  · exact .inl rfl
  · exact .inl rfl
  · exact .inl (beginIteration_result _ _ _)
  · exact .inr (beginIteration_result _ _ _)

theorem engineStep_keeps_result {s t : State} (h : engineStep s = .next t) : t.result = s.result := by
  rcases engineStep_cases s with
    ⟨_, _, _, _, _, _, _, -, -, -, -, -, -, -, -, e⟩ | ⟨-, e⟩ | ⟨_, _, e, -, -⟩ | ⟨-, e⟩ <;>
    cases e.symm.trans h <;> rfl

/-- The judgement of an iteration assigns `RESULT` at a match only. -/
theorem judge_result (s : State) : (judge s).result = s.result ∨ (s.out = s.target ∧ judge s = matched s) := by
  rcases judge_cases s with ⟨ho, e⟩ | ⟨-, -, e⟩ | ⟨-, -, -, e⟩ | ⟨-, -, -, e⟩
  · exact .inr ⟨ho, e⟩
  · exact .inl (e ▸ beginIteration_result _ _ _)
  · exact .inl (e ▸ beginIteration_result _ _ _)
  · exact .inl (e ▸ rfl)

theorem advance_result {s t : State} (h : advance s = .next t) : t.result = s.result ∨
    (t.status = Status.completed .search true ∧ t.out = s.target ∧ t.result = SearchResult.ofPair s.noun s.verb) := by
  rcases advance_cases s with ⟨-, -, e⟩ | ⟨-, -, e⟩ | ⟨-, -, -, e⟩ | ⟨-, e⟩
  · exact .inl (engineStep_keeps_result (e.symm.trans h))
  · rcases endOfRun_cases s with ⟨-, e'⟩ | ⟨-, v, -, e'⟩ | ⟨-, v, -, e'⟩ | ⟨-, e'⟩ | ⟨-, e'⟩ <;>
      cases e'.symm.trans (e.symm.trans h)
    · exact .inl rfl
    · exact .inl rfl
    · rcases judge_result (s.setOut v) with hkept | ⟨hout, hmatched⟩
      · exact .inl hkept
      · exact .inr (hmatched ▸ ⟨rfl, hout, rfl⟩)
  · cases e.symm.trans h
  · cases e.symm.trans h
    exact .inl rfl

/-- Settles O45: a reset and a command clear or keep `RESULT`, and the block's own move assigns it at a match only. -/
theorem resultAssignedOnlyOnMatch : Obligations.ResultAssignedOnlyOnMatch := by
  intro s t h
  rcases step_cases s with ⟨rest, -, e⟩ | ⟨c, rest, -, -, e⟩ | ⟨-, rest, e⟩
  · cases e.symm.trans h
    exact .inr (.inl rfl)
  · exact (accept_result (e.symm.trans h)).imp_right .inl
  · exact (advance_result (e.symm.trans h)).imp_right .inr

end Sys2Proof.Machine
end

section
/-!
A run from its beginning to its end (spec 41_dispatch_halt_cursor.md R83, R84; 42_run_exec_search.md R89, R95, R96):
what the engine keeps, how a run ends, and what each command makes of the end of a run.
-/
namespace Sys2Proof.Machine

/-- `STATUS` of a command that a fault ended (60 R117). -/
def Status.failed (k : FaultKind) (op : Op) : Status := { state := .error, cause := k.cause, op := op, found := false }

/-- `t` is a moment of a run that the command in progress in `s` began: the engine writes `MEM`, the cursor, the latches
and `ENG`, and `STATUS` at a fault only (41 R75, 60 R117). -/
structure RunFrom (s t : State) : Prop where
  frame : t = { s with mem := t.mem, pc := t.pc, ir := t.ir, eng := t.eng, status := t.status }
  total : Memory.total s.len t.mem
  status : (t.eng ≠ .faulted ∧ t.status = s.status) ∨ ∃ k, t.eng = .faulted ∧ t.status = Status.failed k s.status.op
  started : t.eng ≠ .stopped
  nonempty : t.eng = .halted → 0 < s.len

/-- `t` is the end of a run that the command in progress in `s` began. -/
structure RunEnds (s t : State) : Prop extends RunFrom s t where
  ended : t.eng = .halted ∨ t.eng = .faulted

namespace RunFrom

/-! ## What a run keeps -/

section
variable {s t : State} (h : RunFrom s t)
include h

theorem params : t.params = s.params := (congrArg State.params h.frame :)
theorem snap : t.snap = s.snap := (congrArg State.snap h.frame :)
theorem len : t.len = s.len := (congrArg State.len h.frame :)
theorem noun : t.noun = s.noun := (congrArg State.noun h.frame :)
theorem verb : t.verb = s.verb := (congrArg State.verb h.frame :)
theorem out : t.out = s.out := (congrArg State.out h.frame :)
theorem host : t.host = s.host := (congrArg State.host h.frame :)

theorem total_len : Memory.total t.len t.mem := h.len ▸ h.total

theorem status_of_not_faulted (he : t.eng ≠ .faulted) : t.status = s.status := by
  rcases h.status with ⟨-, hs⟩ | ⟨_, hf, -⟩
  · exact hs
  · exact absurd hf he

theorem status_of_faulted (he : t.eng = .faulted) : ∃ k, t.status = Status.failed k s.status.op := by
  rcases h.status with ⟨hne, -⟩ | ⟨k, -, hk⟩
  · exact absurd he hne
  · exact ⟨k, hk⟩

theorem status_of_running (he : t.eng = .running) : t.status = s.status :=
  h.status_of_not_faulted (he ▸ Engine.noConfusion)

/-! ## The moves of a run -/

protected theorem setMem_write (a v : Nat) : RunFrom s (t.setMem (t.mem.write a v)) :=
  { h with
    frame := congrArg (State.setMem · (t.mem.write a v)) h.frame
    total := Memory.total_write h.total a v }

protected theorem takeFault {k : FaultKind} (he : t.eng = .running) : RunFrom s (takeFault k t) where
  frame := congrArg (takeFault k) h.frame
  total := h.total
  status := .inr ⟨k, rfl, congrArg (fun x => Status.failed k (Status.op x)) (h.status_of_running he)⟩
  started := Engine.noConfusion
  nonempty := nofun

/-- An engine step is a move of the run. -/
protected theorem engineStep {u : State} (he : t.eng = .running) (hu : engineStep t = .next u) : RunFrom s u := by
  have hstatus := h.status_of_running he
  rcases engineStep_cases t with
    ⟨i, alu, _, _, d, va, vb, -, -, -, -, -, -, -, -, e⟩ | ⟨hc, e⟩ | ⟨k, l, e, -, -⟩ | ⟨-, e⟩ <;> cases e.symm.trans hu
  · have hstored := h.setMem_write d (alu va vb)
    exact { hstored with frame := congrArg (fun x => advancePc (State.setIr x (t.ir.load i))) hstored.frame }
  · exact {
      frame := congrArg (fun x => State.setEng (State.setIr x (t.ir.load .halt)) .halted) h.frame
      total := h.total
      status := .inl ⟨Engine.noConfusion, hstatus⟩
      started := Engine.noConfusion
      nonempty := fun _ => h.len ▸ Nat.zero_lt_of_lt (show t.pc + 0 < t.len from (hc 0 99 rfl).1) }
  · have hlatched : RunFrom s (t.setIr l) := { h with frame := congrArg (State.setIr · l) h.frame }
    exact hlatched.takeFault he

protected theorem engineLoop {n : Nat} {u : State} (hu : engineLoop n t = .next u) : RunFrom s u := by
  induction n generalizing t with
  | zero =>
    cases hu
    exact h
  | succ n ih =>
    by_cases he : t.eng = .running
    · obtain ⟨w, hw⟩ := engineStep_moves h.total_len
      exact ih (h.engineStep he hw) ((engineLoop_succ_running he hw n).symm.trans hu)
    · cases (engineLoop_of_not_running he (n + 1)).symm.trans hu
      exact h

/-- From any moment on, a run ends within the fuel of `runToEnd` (41 R83, R84). -/
theorem runToEnd_ends : ∃ u, runToEnd t = .next u ∧ RunEnds s u := by
  have hends : ∃ u, runToEnd t = .next u ∧ (u.eng = .halted ∨ u.eng = .faulted) := by
    cases he : t.eng with
    | stopped => exact absurd he h.started
    | running => exact engineLoop_ends (t.len / 4 + 1) h.total_len he (by omega)
    | halted => exact ⟨t, engineLoop_of_not_running (by simp [he]) _, .inl he⟩
    | faulted => exact ⟨t, engineLoop_of_not_running (by simp [he]) _, .inr he⟩
  obtain ⟨u, hu, hended⟩ := hends
  exact ⟨u, hu, h.engineLoop hu, hended⟩

end

end RunFrom

/-- A run ends at a HALT, with an output at address 0, or in a fault (42 R89, R95). -/
theorem RunEnds.cases {s t : State} (h : RunEnds s t) :
    (t.eng = .halted ∧ t.status = s.status ∧ ∃ o, t.mem.read 0 = some o) ∨
    (t.eng = .faulted ∧ ∃ k, t.status = Status.failed k s.status.op) := by
  rcases h.ended with he | he
  · exact .inl ⟨he, h.status_of_not_faulted (he ▸ Engine.noConfusion),
      Memory.exists_read_of_total h.total (h.nonempty he)⟩
  · exact .inr ⟨he, h.status_of_faulted he⟩

/-! ## The beginning of a run (42 R93, R95) -/

section
variable {s : State} (hsnap : Memory.total s.len s.snap)
include hsnap

theorem runFrom_restore : RunFrom s (restore s) where
  frame := rfl
  total := Memory.total_copyBelow s.mem hsnap
  status := .inl ⟨Engine.noConfusion, rfl⟩
  started := Engine.noConfusion
  nonempty := nofun

theorem runFrom_beginRun : RunFrom (s.setStatus (Status.inProgress .run)) (beginRun s) :=
  runFrom_restore (s := s.setStatus (Status.inProgress .run)) hsnap

theorem runFrom_beginIteration (n v : Nat) : RunFrom s (beginIteration n v s) := by
  have hrestored := runFrom_restore hsnap
  rcases beginIteration_cases n v s with ⟨-, e⟩ | ⟨-, e⟩ | ⟨-, e⟩ <;> rw [e]
  · exact hrestored.takeFault rfl
  · exact (hrestored.setMem_write 1 n).takeFault rfl
  · exact (hrestored.setMem_write 1 n).setMem_write 2 v

end

/-! ## `ExecOnce` (42 R95) -/

section
variable {s t : State} {n v : Nat} (h : runToEnd (beginIteration n v s) = .next t)
include h

theorem execOnce_of_halted (he : t.eng = .halted) {o : Nat} (ho : t.mem.read 0 = some o) :
    execOnce n v s = .next (t.setOut o) := by
  simp only [execOnce, h, onNext, he, if_true, collectOut, ho, id]

theorem execOnce_of_faulted (he : t.eng = .faulted) : execOnce n v s = .next t := by
  simp only [execOnce, h, onNext, he, reduceCtorEq, if_false]

end

/-- An iteration runs to its end; `OUT` is collected after a HALT. -/
theorem execOnce_cases {s : State} (hsnap : Memory.total s.len s.snap) (n v : Nat) :
    ∃ t, runToEnd (beginIteration n v s) = .next t ∧ RunEnds s t ∧
    ((t.eng = .halted ∧ t.status = s.status ∧ ∃ o, t.mem.read 0 = some o ∧ execOnce n v s = .next (t.setOut o)) ∨
      (t.eng = .faulted ∧ (∃ k, t.status = Status.failed k s.status.op) ∧ execOnce n v s = .next t)) := by
  obtain ⟨t, ht, hends⟩ := (runFrom_beginIteration hsnap n v).runToEnd_ends
  refine ⟨t, ht, hends, ?_⟩
  rcases hends.cases with ⟨he, hstatus, o, ho⟩ | ⟨he, hstatus⟩
  · exact .inl ⟨he, hstatus, o, ho, execOnce_of_halted ht he ho⟩
  · exact .inr ⟨he, hstatus, execOnce_of_faulted ht he⟩

/-- What `EXEC(n, v)` writes before its iteration (42 R95). -/
def startExec (n v : Nat) (s : State) : State := setPair n v (s.setStatus (Status.inProgress .exec))

/-! ## What the commands make of the end of a run (42 R89, R95, R96) -/

section
variable {s t : State}

theorem commandRun_of_halted (h : runToEnd (beginRun s) = .next t) (he : t.eng = .halted) :
    commandRun s = .next (t.setStatus (Status.completed .run false)) := by
  simp only [commandRun, h, onNext, he, if_true]

theorem commandRun_of_faulted (h : runToEnd (beginRun s) = .next t) (he : t.eng = .faulted) :
    commandRun s = .next t := by
  simp only [commandRun, h, onNext, he, reduceCtorEq, if_false]

variable {n v : Nat}

theorem commandExec_of_halted (h : execOnce n v (startExec n v s) = .next t) (he : t.eng = .halted) :
    commandExec n v s = .next (t.setStatus (Status.completed .exec false)) := by
  unfold startExec at h
  simp only [commandExec, h, onNext, he, if_true]

theorem commandExec_of_faulted (h : execOnce n v (startExec n v s) = .next t) (he : t.eng = .faulted) :
    commandExec n v s = .next t := by
  unfold startExec at h
  simp only [commandExec, h, onNext, he, reduceCtorEq, if_false]

theorem command_exec (hn : s.params.fits n = true) (hv : s.params.fits v = true) :
    command (.exec n v) s = commandExec n v s := by
  simp only [command, hn, hv, Bool.and_true, if_true]

variable {pairs : List (Nat × Nat)}

theorem searchLoop_of_match (h : execOnce n v (setPair n v s) = .next t) (he : t.eng = .halted)
    (hout : t.out = t.target) : searchLoop ((n, v) :: pairs) s = .next (matched t) := by
  simp only [searchLoop, h, onNext, he, if_true, hout]

theorem searchLoop_of_miss (h : execOnce n v (setPair n v s) = .next t) (he : t.eng = .halted)
    (hout : t.out ≠ t.target) : searchLoop ((n, v) :: pairs) s = searchLoop pairs t := by
  simp only [searchLoop, h, onNext, he, if_true, hout, if_false]

theorem searchLoop_of_faulted (h : execOnce n v (setPair n v s) = .next t) (he : t.eng = .faulted) :
    searchLoop ((n, v) :: pairs) s = .next t := by
  simp only [searchLoop, h, onNext, he, reduceCtorEq, if_false]

end

end Sys2Proof.Machine
end

section
/-!
The moves of the machine against the commands as atomic functions (spec 42_run_exec_search.md R87, R106): each command,
taken up by one step, is carried out by the steps that follow, within a bound.
-/
namespace Sys2Proof.Machine

/-! ## A bounded number of steps -/

/-- At most `n` steps lead from `s` to `t`. -/
def StepsWithin (n : Nat) (s t : State) : Prop := ∃ j, j ≤ n ∧ stepN j s = .next t

theorem StepsWithin.refl (n : Nat) (s : State) : StepsWithin n s s := ⟨0, Nat.zero_le n, rfl⟩

theorem StepsWithin.cons {n : Nat} {s t u : State} (h : step s = .next t) (ht : StepsWithin n t u) :
    StepsWithin (n + 1) s u := by
  obtain ⟨j, hj, e⟩ := ht
  exact ⟨j + 1, Nat.succ_le_succ hj, by rw [stepN, h]; exact e⟩

theorem StepsWithin.single {s t : State} (h : step s = .next t) : StepsWithin 1 s t := .cons h (.refl 0 t)

theorem stepN_add {i j : Nat} {s t : State} (h : stepN i s = .next t) : stepN (i + j) s = stepN j t := by
  induction i generalizing s with
  | zero =>
    cases h
    rw [Nat.zero_add]
  | succ i ih =>
    rw [Nat.succ_add, stepN]
    rw [stepN] at h
    cases hs : step s with
    | next u =>
      rw [hs] at h
      exact ih h
    | fault | refused =>
      rw [hs] at h
      cases h

theorem StepsWithin.trans {m n : Nat} {s t u : State} (h : StepsWithin m s t) (ht : StepsWithin n t u) :
    StepsWithin (m + n) s u := by
  obtain ⟨i, hi, e⟩ := h
  obtain ⟨j, hj, e'⟩ := ht
  exact ⟨i + j, Nat.add_le_add hi hj, (stepN_add e).trans e'⟩

theorem StepsWithin.mono {m n : Nat} {s t : State} (hmn : m ≤ n) (h : StepsWithin m s t) : StepsWithin n s t := by
  obtain ⟨j, hj, e⟩ := h
  exact ⟨j, Nat.le_trans hj hmn, e⟩

/-! ## The steps of a run -/

theorem step_of_running {s : State} (hb : s.status.state = .busy) (he : s.eng = .running) (hh : s.host = []) :
    step s = engineStep s := by
  simp only [step, blockStep, hh, advance_running hb he]

section
variable {s t u : State} (h : RunFrom s t) (hb : s.status.state = .busy) (hh : s.host = [])
include h hb hh

/-- Each turn of the engine's loop is a step of the machine. -/
theorem RunFrom.steps_of_engineLoop {n : Nat} (hu : engineLoop n t = .next u) : StepsWithin n t u := by
  induction n generalizing t with
  | zero =>
    cases hu
    exact .refl 0 _
  | succ n ih =>
    by_cases he : t.eng = .running
    · obtain ⟨w, hw⟩ := engineStep_moves h.total_len
      have hstep := step_of_running (h.status_of_running he ▸ hb) he (h.host.trans hh)
      exact .cons (hstep.trans hw) (ih (h.engineStep he hw) ((engineLoop_succ_running he hw n).symm.trans hu))
    · cases (engineLoop_of_not_running he (n + 1)).symm.trans hu
      exact .refl _ _

theorem RunFrom.steps_of_runToEnd (hu : runToEnd t = .next u) : StepsWithin (s.len / 4 + 1) t u :=
  h.len ▸ h.steps_of_engineLoop hb hh hu

end

/-! ## Each command, from the step after it is taken up -/

/-- No command is in progress and no move of the host is pending. -/
def State.Quiet (s : State) : Prop := s.status.state ≠ .busy ∧ s.host = []

theorem RunEnds.quiet_of_failed {s t : State} (h : RunEnds s t) (hh : s.host = [])
    (hf : ∃ k, t.status = Status.failed k s.status.op) : t.Quiet := by
  obtain ⟨k, hk⟩ := hf
  exact ⟨hk ▸ BlockState.noConfusion, h.host.trans hh⟩

section
variable {s : State} (hsnap : Memory.total s.len s.snap) (hh : s.host = [])
include hsnap hh

/-- A RUN: its run, and the sequencer's move if that halts (42 R89). -/
theorem steps_of_commandRun : ∃ t, StepsWithin (s.len / 4 + 2) (beginRun s) t ∧ commandRun s = .next t ∧ t.Quiet := by
  have hbegun := runFrom_beginRun hsnap
  obtain ⟨t, ht, hends⟩ := hbegun.runToEnd_ends
  have hrun : StepsWithin (s.len / 4 + 1) (beginRun s) t := hbegun.steps_of_runToEnd rfl hh ht
  rcases hends.cases with ⟨he, hstatus, -⟩ | ⟨he, hf⟩
  · have hstep := step_halted_run (hstatus ▸ rfl) he (hends.host.trans hh) (hstatus ▸ rfl)
    exact ⟨_, hrun.trans (.single hstep), commandRun_of_halted ht he, BlockState.noConfusion, hends.host.trans hh⟩
  · exact ⟨t, hrun.mono (by omega), commandRun_of_faulted ht he, hends.quiet_of_failed hh hf⟩

/-- An EXEC: its one iteration, and the sequencer's move if that halts (42 R95). -/
theorem steps_of_commandExec (n v : Nat) :
    ∃ t, StepsWithin (s.len / 4 + 2) (beginExec n v s) t ∧ commandExec n v s = .next t ∧ t.Quiet := by
  obtain ⟨t, ht, hends, hcases⟩ := execOnce_cases (s := startExec n v s) hsnap n v
  have hrun : StepsWithin (s.len / 4 + 1) (beginExec n v s) t :=
    (runFrom_beginIteration (s := startExec n v s) hsnap n v).steps_of_runToEnd rfl hh ht
  rcases hcases with ⟨he, hstatus, o, ho, hexec⟩ | ⟨he, hf, hexec⟩
  · have hstep := step_halted_exec (hstatus ▸ rfl) he (hends.host.trans hh) (hstatus ▸ rfl) ho
    exact ⟨_, hrun.trans (.single hstep), commandExec_of_halted hexec he, BlockState.noConfusion, hends.host.trans hh⟩
  · exact ⟨t, hrun.mono (by omega), commandExec_of_faulted hexec he, hends.quiet_of_failed hh hf⟩

end

/-! ## A SEARCH (42 R96 to R100) -/

/-- A search is in progress, the image can be restored, and no move of the host is pending. -/
structure Searching (s : State) : Prop where
  snapTotal : Memory.total s.len s.snap
  status : s.status = Status.inProgress .search
  host : s.host = []

/-- The iteration of pair `p`, begun. -/
def beginPair (p : Nat × Nat) (s : State) : State := beginIteration p.1 p.2 (setPair p.1 p.2 s)

/-- The iteration of one pair, and the sequencer's move if that halts: the search ends, or goes on to the next pair. -/
theorem Searching.steps_of_iteration {s : State} (hs : Searching s) (p : Nat × Nat) :
    (∃ t, StepsWithin (s.len / 4 + 2) (beginPair p s) t ∧ t.Quiet ∧ ∀ rest, searchLoop (p :: rest) s = .next t) ∨
    (∃ t, StepsWithin (s.len / 4 + 2) (beginPair p s) (nextIteration t) ∧ Searching t ∧ t.len = s.len ∧
      (t.noun, t.verb) = p ∧ ∀ rest, searchLoop (p :: rest) s = searchLoop rest t) := by
  have hsnap : Memory.total (setPair p.1 p.2 s).len (setPair p.1 p.2 s).snap := hs.snapTotal
  obtain ⟨t, ht, hends, hcases⟩ := execOnce_cases hsnap p.1 p.2
  have hhost : t.host = [] := hends.host.trans hs.host
  have hrun : StepsWithin (s.len / 4 + 1) (beginPair p s) t :=
    (runFrom_beginIteration hsnap p.1 p.2).steps_of_runToEnd (hs.status ▸ rfl) hs.host ht
  rcases hcases with ⟨he, hstatus, o, ho, hexec⟩ | ⟨he, hf, hexec⟩
  · have hsearch : t.status = Status.inProgress .search := hstatus.trans hs.status
    have hstep := step_halted_search (hsearch ▸ rfl) he hhost (hsearch ▸ rfl) ho
    by_cases hout : o = t.target
    · have hmatched : judge (t.setOut o) = matched (t.setOut o) := if_pos hout
      rw [hmatched] at hstep
      exact .inl ⟨_, hrun.trans (.single hstep), ⟨BlockState.noConfusion, hhost⟩,
        fun _ => searchLoop_of_match hexec he hout⟩
    · have hmissed : judge (t.setOut o) = nextIteration (t.setOut o) := if_neg hout
      rw [hmissed] at hstep
      have hgoing : Searching (t.setOut o) :=
        { snapTotal := show Memory.total t.len t.snap by rw [hends.len, hends.snap]; exact hsnap
          status := hsearch
          host := hhost }
      exact .inr ⟨_, hrun.trans (.single hstep), hgoing, hends.len, Prod.ext hends.noun hends.verb,
        fun _ => searchLoop_of_miss hexec he hout⟩
  · exact .inl ⟨t, hrun.mono (by omega), hends.quiet_of_failed hs.host hf, fun _ => searchLoop_of_faulted hexec he⟩

/-- The last `m + 1` iterations of a search, from pair number `k` on. -/
theorem Searching.steps_of_searchLoop {m k : Nat} (hk : k + m + 1 = 9801) {s : State} (hs : Searching s) :
    ∃ t, StepsWithin ((m + 1) * (s.len / 4 + 2)) (beginPair (pairAt k) s) t ∧
      searchLoop ((List.range' k (m + 1)).map pairAt) s = .next t ∧ t.Quiet := by
  induction m generalizing k s with
  | zero =>
    rcases hs.steps_of_iteration (pairAt k) with ⟨t, hsteps, hquiet, hloop⟩ | ⟨t, hsteps, ht, -, hpair, hloop⟩
    · exact ⟨t, hsteps.mono (by omega), hloop _, hquiet⟩
    · rw [nextIteration_of_last hpair hk] at hsteps
      exact ⟨_, hsteps.mono (by omega), hloop _, BlockState.noConfusion, ht.host⟩
  | succ m ih =>
    rcases hs.steps_of_iteration (pairAt k) with ⟨t, hsteps, hquiet, hloop⟩ | ⟨t, hsteps, ht, hlen, hpair, hloop⟩
    · exact ⟨t, hsteps.mono (Nat.le_mul_of_pos_left _ (Nat.succ_pos _)), hloop _, hquiet⟩
    · rw [nextIteration_of_lt hpair (by omega)] at hsteps
      obtain ⟨u, hrest, hu, hquiet⟩ := ih (k := k + 1) (by omega) ht
      refine ⟨u, ?_, (hloop _).trans hu, hquiet⟩
      rw [hlen] at hrest
      rw [Nat.succ_mul, Nat.add_comm]
      exact hsteps.trans hrest

theorem steps_of_commandSearch {s : State} (hsnap : Memory.total s.len s.snap) (hh : s.host = []) (g : Nat) :
    ∃ t, StepsWithin (9801 * (s.len / 4 + 2)) (beginSearch g s) t ∧ commandSearch g s = .next t ∧ t.Quiet := by
  have hs : Searching (startSearch g s) := ⟨hsnap, rfl, hh⟩
  rw [commandSearch, searchPairs_eq_map_pairAt, List.range_eq_range']
  exact hs.steps_of_searchLoop (k := 0) (m := 9800) rfl

/-! ## Every command (42 R87, R106) -/

/-- The moves of the machine carry out every command as one atomic function, within the bound of R106. -/
theorem steps_of_command {s : State} {c : Command} (hs : Inv s) (hb : s.status.state ≠ .busy)
    (hc : c.representable s.params = true) (hh : s.host = []) :
    ∃ t, StepsWithin (9801 * (s.len / 4 + 2) + 1) (s.setHost [.issue c]) t ∧ command c s = .next t ∧ t.Quiet := by
  have hself : s.setHost [] = s := by
    rw [← hh]
    rfl
  have hissued : step (s.setHost [.issue c]) = accept c s :=
    (step_issue (s := s.setHost [.issue c]) hb rfl).trans (congrArg (accept c) hself)
  have hrest {n : Nat} {b t : State} (haccept : accept c s = .next b) (hn : n ≤ 9801 * (s.len / 4 + 2))
      (hsteps : StepsWithin n b t) : StepsWithin (9801 * (s.len / 4 + 2) + 1) (s.setHost [.issue c]) t :=
    .cons (hissued.trans haccept) (hsteps.mono hn)
  rcases accept_cases c s with
    ⟨image, rfl, hl, e⟩ | ⟨image, rfl, hl, e⟩ | ⟨rfl, e⟩ | ⟨n, v, rfl, hn, hv, e⟩ | ⟨n, v, rfl, hwide, -⟩ | ⟨g, rfl, e⟩
  · exact ⟨_, hrest e (Nat.zero_le _) (.refl 0 _), by rw [command, hl]; rfl, BlockState.noConfusion, hh⟩
  · exact ⟨s, hrest e (Nat.zero_le _) (.refl 0 _), by rw [command, hl]; rfl, hb, hh⟩
  · obtain ⟨t, hsteps, ht, hquiet⟩ := steps_of_commandRun hs.snapTotal hh
    exact ⟨t, hrest e (by omega) hsteps, ht, hquiet⟩
  · obtain ⟨t, hsteps, ht, hquiet⟩ := steps_of_commandExec hs.snapTotal hh n v
    exact ⟨t, hrest e (by omega) hsteps, (command_exec hn hv).trans ht, hquiet⟩
  · exact absurd (by simpa [Command.representable] using hc) hwide
  · obtain ⟨t, hsteps, ht, hquiet⟩ := steps_of_commandSearch hs.snapTotal hh g
    exact ⟨t, hrest e (Nat.le_refl _) hsteps, ht, hquiet⟩

/-- Settles O52: the steps that carry the command out come to the state of the atomic function. -/
theorem stepsRefineAtomicCommand : Obligations.StepsRefineAtomicCommand := by
  intro s c hs hb hc hh
  obtain ⟨t, ⟨n, -, hn⟩, ht, hquiet, -⟩ := steps_of_command hs hb hc hh
  exact ⟨n, t, hn, ht, hquiet⟩

/-- Settles O51: the moves the host had before play no part, so the block may be taken without any. -/
theorem everyCommandEnds : Obligations.EveryCommandEnds := by
  intro s c hs hb hc
  have hfree : Inv (s.setHost []) := hs.setHost (List.nil_subset _)
  obtain ⟨t, ⟨n, hle, hn⟩, -, hquiet, hh⟩ := steps_of_command hfree hb hc rfl
  exact ⟨n, t, hle, hn, hquiet, hh⟩

end Sys2Proof.Machine
end

section
/-!
Runs side by side (spec 42_run_exec_search.md R102): two blocks whose engines agree on the parameters, `LEN`, the cells
below `LEN`, the cursor and `ENG` run alike, and `Restore()` makes blocks with the same image agree.
-/
namespace Sys2Proof.Machine

/-! ## Agreement on what an iteration starts from, and on what the engine uses -/

/-- The blocks hold the same image: the same parameters, `LEN`, and `SNAP` below `LEN` (20 R48). -/
structure SameImage (s t : State) : Prop where
  params : s.params = t.params
  len : s.len = t.len
  snap : ∀ a, a < s.len → s.snap.read a = t.snap.read a

/-- The engines of the blocks are at the same moment of the same run, with the same cause if it faulted. -/
structure SameRun (s t : State) : Prop where
  params : s.params = t.params
  len : s.len = t.len
  pc : s.pc = t.pc
  eng : s.eng = t.eng
  mem : ∀ a, a < s.len → s.mem.read a = t.mem.read a
  cause : s.eng = .faulted → s.status.cause = t.status.cause

namespace SameRun

section
variable {s t : State} (h : SameRun s t)
include h

protected theorem setIr (l m : Latches) : SameRun (s.setIr l) (t.setIr m) := { h with }

protected theorem setEng {e : Engine} (he : e ≠ .faulted) : SameRun (s.setEng e) (t.setEng e) :=
  { h with
    eng := rfl
    cause := fun hf => absurd hf he }

protected theorem advancePc : SameRun (advancePc s) (advancePc t) := { h with pc := congrArg (· + 4) h.pc }

protected theorem takeFault (k : FaultKind) : SameRun (takeFault k s) (takeFault k t) :=
  { h with
    eng := rfl
    cause := fun _ => rfl }

protected theorem setMem_write (a v : Nat) :
    SameRun (s.setMem (s.mem.write a v)) (t.setMem (t.mem.write a v)) :=
  { h with
    mem := fun x hx => by
      rw [State.setMem_mem, State.setMem_mem, Memory.read_write, Memory.read_write, h.mem x hx] }

end

end SameRun

/-! ## Accesses of two engines at the same moment -/

/-- The accesses come to the same: the same value, or the same fault, at the same moment of the run. -/
inductive Access.Alike {α : Type} : Access α → Access α → Prop where
  | ok (v : α) {s t : State} (h : SameRun s t) : Alike (.ok v s) (.ok v t)
  | raised (k : FaultKind) {s t : State} (h : SameRun s t) : Alike (.raised k s) (.raised k t)
  | unwritten : Alike .unwritten .unwritten

theorem Access.Alike.andThen {α β : Type} {x y : Access α} {f g : α → State → Access β} (h : Alike x y)
    (hfg : ∀ v s t, SameRun s t → Alike (f v s) (g v t)) : Alike (x.andThen f) (y.andThen g) := by
  cases h with
  | ok v h => exact hfg v _ _ h
  | raised k h => exact .raised k h
  | unwritten => exact .unwritten

namespace SameRun

section
variable {s t : State} (h : SameRun s t)
include h

protected theorem memRead (a : Nat) : (memRead a s).Alike (memRead a t) := by
  rcases memRead_cases a s with ⟨ha, e⟩ | ⟨v, ha, hv, e⟩ | ⟨ha, hv, e⟩ <;> rw [e]
  · rw [memRead_beyond (h.len ▸ ha)]
    exact .raised .boundary h
  · rw [memRead_ok (h.len ▸ ha) ((h.mem a ha).symm.trans hv)]
    exact .ok v h
  · rw [memRead_unwritten (h.len ▸ ha) ((h.mem a ha).symm.trans hv)]
    exact .unwritten

protected theorem memWrite (a v : Nat) : (memWrite a v s).Alike (memWrite a v t) := by
  rcases memWrite_cases a v s with ⟨ha, e⟩ | ⟨ha, e⟩ <;> rw [e]
  · rw [memWrite_beyond (h.len ▸ ha)]
    exact .raised .boundary h
  · rw [memWrite_ok (h.len ▸ ha)]
    exact .ok () (h.setMem_write a v)

protected theorem latchCell (a : Nat) (load : Latches → Nat → Latches) :
    (latchCell a load s).Alike (latchCell a load t) :=
  (h.memRead a).andThen fun v _ _ h => .ok v (h.setIr _ _)

protected theorem latchOperands : (latchOperands s).Alike (latchOperands t) := by
  unfold latchOperands
  rw [h.pc]
  exact (h.latchCell (t.pc + 1) Latches.loadA).andThen fun a _ _ h =>
    (h.latchCell (t.pc + 2) Latches.loadB).andThen fun b _ _ h =>
    (h.latchCell (t.pc + 3) Latches.loadD).andThen fun d _ _ h => .ok (a, b, d) h

protected theorem decodeLatched (cells : List Nat) : (decodeLatched cells s).Alike (decodeLatched cells t) := by
  unfold decodeLatched
  cases decode cells with
  | instr i => exact .ok i h
  | error e => exact .raised (decodeFault e) h

protected theorem fetchRest (op : Nat) : (fetchRest op s).Alike (fetchRest op t) := by
  unfold fetchRest
  cases operandCells op with
  | zero => exact h.decodeLatched [op]
  | succ n => exact h.latchOperands.andThen fun v _ _ h => h.decodeLatched [op, v.1, v.2.1, v.2.2]

protected theorem fetch : (fetch s).Alike (fetch t) := by
  unfold fetch
  rw [h.pc]
  exact (h.latchCell t.pc Latches.loadOp).andThen fun op _ _ h => h.fetchRest op

protected theorem checkResult (r : Nat) : (checkResult r s).Alike (checkResult r t) := by
  unfold checkResult
  rw [h.params]
  split
  · exact .raised .overflow h
  · exact .ok r h

protected theorem computeAndStore (alu : Nat → Nat → Nat) (a b d : Nat) :
    (computeAndStore alu a b d s).Alike (computeAndStore alu a b d t) :=
  have hsources : (sourceValues a b s).Alike (sourceValues a b t) :=
    (h.memRead a).andThen fun va _ _ h => (h.memRead b).andThen fun vb _ _ h => .ok (va, vb) h
  hsources.andThen fun v _ _ h => (h.checkResult (alu v.1 v.2)).andThen fun r _ _ h =>
    (h.memWrite d r).andThen fun _ _ _ h => .ok () h.advancePc

protected theorem inject (n v : Nat) : (inject n v s).Alike (inject n v t) :=
  (h.memWrite Config.nounPos n).andThen fun _ _ _ h => h.memWrite Config.verbPos v

end

end SameRun

/-! ## Engine steps and runs side by side -/

section
variable {s t u : State}

protected theorem Access.Alike.conclude {x y : Access Unit} (h : x.Alike y) (hu : conclude x = .next u) :
    ∃ w, conclude y = .next w ∧ SameRun u w := by
  cases h with
  | ok v h =>
    cases hu
    exact ⟨_, rfl, h⟩
  | raised k h =>
    cases hu
    exact ⟨_, rfl, h.takeFault k⟩
  | unwritten => cases hu

protected theorem Access.Alike.settle {x y : Access Unit} (h : x.Alike y) (hs : SameRun s t) :
    SameRun (settle x s) (settle y t) := by
  cases h with
  | ok v h => exact h
  | raised k h => exact h.takeFault k
  | unwritten => exact hs

protected theorem SameRun.exec (h : SameRun s t) (i : Instr) (hu : exec i s = .next u) :
    ∃ w, exec i t = .next w ∧ SameRun u w := by
  by_cases hi : i = .halt
  · subst hi
    cases hu
    exact ⟨_, rfl, h.setEng Engine.noConfusion⟩
  · obtain ⟨alu, a, b, d, hc⟩ := computes_of_ne_halt hi
    rw [exec_computes hc] at hu ⊢
    exact (h.computeAndStore alu a b d).conclude hu

protected theorem Access.Alike.runFetched {x y : Access Instr} (h : x.Alike y) (hu : runFetched x = .next u) :
    ∃ w, runFetched y = .next w ∧ SameRun u w := by
  cases h with
  | ok i h => exact h.exec i hu
  | raised k h =>
    cases hu
    exact ⟨_, rfl, h.takeFault k⟩
  | unwritten => cases hu

protected theorem SameRun.engineStep (h : SameRun s t) (hu : engineStep s = .next u) :
    ∃ w, engineStep t = .next w ∧ SameRun u w := h.fetch.runFetched hu

protected theorem SameRun.engineLoop {n : Nat} (h : SameRun s t) (hm : Memory.total s.len s.mem)
    (hu : engineLoop n s = .next u) : ∃ w, engineLoop n t = .next w ∧ SameRun u w := by
  induction n generalizing s t with
  | zero =>
    cases hu
    exact ⟨t, rfl, h⟩
  | succ n ih =>
    by_cases he : s.eng = .running
    · obtain ⟨s', hs'⟩ := engineStep_moves hm
      obtain ⟨t', ht', h'⟩ := h.engineStep hs'
      rw [engineLoop_succ_running he hs'] at hu
      rw [engineLoop_succ_running (h.eng ▸ he) ht']
      exact ih h' (engineStep_keeps_total hm hs') hu
    · cases (engineLoop_of_not_running he (n + 1)).symm.trans hu
      exact ⟨t, engineLoop_of_not_running (h.eng ▸ he) (n + 1), h⟩

protected theorem SameRun.runToEnd (h : SameRun s t) (hm : Memory.total s.len s.mem) (hu : runToEnd s = .next u) :
    ∃ w, runToEnd t = .next w ∧ SameRun u w := by
  unfold Machine.runToEnd
  rw [← h.len]
  exact h.engineLoop hm hu

/-- Two runs that begin at the same moment end at the same moment. -/
theorem SameRun.runToEnd_ends {s' t' : State} (h : SameRun s t) (hs : RunFrom s' s) (ht : RunFrom t' t) :
    ∃ u w, runToEnd s = .next u ∧ runToEnd t = .next w ∧ RunEnds s' u ∧ RunEnds t' w ∧ SameRun u w := by
  obtain ⟨u, hu, hends⟩ := hs.runToEnd_ends
  obtain ⟨w, hw, hends'⟩ := ht.runToEnd_ends
  obtain ⟨w', hw', hsame⟩ := h.runToEnd hs.total_len hu
  cases hw.symm.trans hw'
  exact ⟨u, w, hu, hw, hends, hends', hsame⟩

end

/-! ## Runs and iterations of the same image -/

namespace SameImage

theorem refl (s : State) : SameImage s s := ⟨rfl, rfl, fun _ _ => rfl⟩

section
variable {s t : State} (h : SameImage s t)
include h

theorem total (hsnap : Memory.total s.len s.snap) : Memory.total t.len t.snap := by
  intro a ha
  rw [← h.len] at ha
  exact h.snap a ha ▸ hsnap a ha

theorem symm : SameImage t s where
  params := h.params.symm
  len := h.len.symm
  snap := fun a ha => (h.snap a (h.len ▸ ha)).symm

theorem trans {u : State} (h' : SameImage t u) : SameImage s u where
  params := h.params.trans h'.params
  len := h.len.trans h'.len
  snap := fun a ha => (h.snap a ha).trans (h'.snap a (h.len ▸ ha))

protected theorem restore : SameRun (restore s) (restore t) where
  params := h.params
  len := h.len
  pc := rfl
  eng := rfl
  mem := fun a (ha : a < s.len) => by
    rw [restore_read_below ha, restore_read_below (h.len ▸ ha)]
    exact h.snap a ha
  cause := nofun

protected theorem beginIteration (n v : Nat) : SameRun (beginIteration n v s) (beginIteration n v t) :=
  (h.restore.inject n v).settle h.restore

end

end SameImage

/-- A run keeps the image (42 R93: `SNAP` and `LEN` are read only). -/
theorem RunFrom.sameImage {s t : State} (h : RunFrom s t) : SameImage s t := by
  rw [h.frame]
  exact { SameImage.refl s with }

/-- `t` is the end of an iteration of the command in progress in `s`: `OUT` is written if it halted (42 R95). -/
structure IterationEnds (s t : State) : Prop where
  frame : t = { s with mem := t.mem, pc := t.pc, ir := t.ir, eng := t.eng, status := t.status, out := t.out }
  ended : (t.eng = .halted ∧ t.status = s.status) ∨ (t.eng = .faulted ∧ ∃ k, t.status = Status.failed k s.status.op)

namespace IterationEnds

section
variable {s t : State} (h : IterationEnds s t)
include h

theorem target : t.target = s.target := (congrArg State.target h.frame :)
theorem noun : t.noun = s.noun := (congrArg State.noun h.frame :)
theorem verb : t.verb = s.verb := (congrArg State.verb h.frame :)
theorem result : t.result = s.result := (congrArg State.result h.frame :)

theorem status_of_halted (he : t.eng = .halted) : t.status = s.status := by
  rcases h.ended with ⟨-, hstatus⟩ | ⟨he', -⟩
  · exact hstatus
  · cases he.symm.trans he'

theorem status_of_faulted (he : t.eng = .faulted) : ∃ k, t.status = Status.failed k s.status.op := by
  rcases h.ended with ⟨he', -⟩ | ⟨-, hf⟩
  · cases he.symm.trans he'
  · exact hf

theorem sameImage : SameImage s t := by
  rw [h.frame]
  exact { SameImage.refl s with }

end

end IterationEnds

theorem IterationEnds.of_execOnce {s t : State} {n v : Nat} (hsnap : Memory.total s.len s.snap)
    (h : execOnce n v s = .next t) : IterationEnds s t := by
  obtain ⟨u, -, hends, ⟨he, hstatus, o, -, e⟩ | ⟨he, hf, e⟩⟩ := execOnce_cases hsnap n v <;> cases e.symm.trans h
  · exact ⟨congrArg (State.setOut · o) hends.frame, .inl ⟨he, hstatus⟩⟩
  · have hframe := hends.frame
    rw [← hends.out] at hframe
    exact ⟨hframe, .inr ⟨he, hf⟩⟩

/-- Iterations of the same pair on the same image end at the same moment, with the same output. -/
protected theorem SameImage.execOnce {s t : State} (h : SameImage s t) (hsnap : Memory.total s.len s.snap) (n v : Nat) :
    ∃ u w, execOnce n v s = .next u ∧ execOnce n v t = .next w ∧ IterationEnds s u ∧ IterationEnds t w ∧
      SameRun u w ∧ (u.eng = .halted → u.out = w.out) := by
  have hsnap' := h.total hsnap
  obtain ⟨u, w, hu, hw, hends, -, hsame⟩ := (h.beginIteration n v).runToEnd_ends
    (runFrom_beginIteration hsnap n v) (runFrom_beginIteration hsnap' n v)
  rcases hends.cases with ⟨he, -, o, ho⟩ | ⟨he, -⟩
  · have ho' : w.mem.read 0 = some o := (hsame.mem 0 (hends.len ▸ hends.nonempty he)).symm.trans ho
    have hu' := execOnce_of_halted hu he ho
    have hw' := execOnce_of_halted hw (hsame.eng ▸ he) ho'
    exact ⟨_, _, hu', hw', .of_execOnce hsnap hu', .of_execOnce hsnap' hw', { hsame with }, fun _ => rfl⟩
  · have hu' := execOnce_of_faulted hu he
    have hw' := execOnce_of_faulted hw (hsame.eng ▸ he)
    exact ⟨u, w, hu', hw', .of_execOnce hsnap hu', .of_execOnce hsnap' hw', hsame,
      fun hh => absurd (he.symm.trans hh) Engine.noConfusion⟩

/-- Settles O53: both iterations begin by restoring the same image. -/
theorem iterationsAreIndependent : Obligations.IterationsAreIndependent := by
  intro s t n v hp hlen hread hsnap
  obtain ⟨u, w, hu, hw, hends, -, hsame, hout⟩ := SameImage.execOnce ⟨hp, hlen, hread⟩ hsnap n v
  exact ⟨u, w, hu, hw, hsame.eng, hsame.pc, fun a ha => hsame.mem a (hends.sameImage.len ▸ ha), hout, hsame.cause⟩

end Sys2Proof.Machine
end

section
/-!
What a command reports (spec 42_run_exec_search.md R102, R103; 10_state.md R32): the host's reads after a command
depend on the loaded image and the command alone.
-/
namespace Sys2Proof.Machine

/-! ## The reads after a command has ended (10 R32) -/

/-- The reads can be told apart only by what `STATUS` lets the host read. -/
theorem SameReads.of_status {u w : State} (hstatus : u.status = w.status) (hlen : u.len = w.len)
    (hmem : u.status.state = .done → u.status.op = .run → ∀ a, a < u.len → u.mem.read a = w.mem.read a)
    (hout : u.status.state = .done → u.status.op = .exec ∨ u.status.op = .search → u.out = w.out)
    (hresult : u.status.state = .done → u.status.op = .search → u.result = w.result) : SameReads u w := by
  refine ⟨hstatus, hlen, fun i => ?_, ?_, ?_, ?_⟩
  · simp only [readMem, ← hstatus, ← hlen]
    exact ite_congr rfl (fun ⟨hs, ho, hi⟩ => hmem hs ho i hi) fun _ => rfl
  · simp only [readOut, ← hstatus]
    exact ite_congr rfl (fun ⟨hs, ho⟩ => congrArg some (hout hs ho)) fun _ => rfl
  · simp only [readResult, ← hstatus]
    exact ite_congr rfl (fun ⟨hs, ho⟩ => congrArg some (hresult hs ho)) fun _ => rfl
  · simp only [readAnswer, ← hstatus]
    exact ite_congr rfl (fun ⟨hs, ho⟩ => congrArg (some ∘ SearchResult.answer) (hresult hs ho)) fun _ => rfl

/-- After a fault the host reads `STATUS` and `LEN` only. -/
theorem SameReads.of_failed {u w : State} {op : Op} (h : SameRun u w) (he : u.eng = .faulted)
    (hu : ∃ k, u.status = Status.failed k op) (hw : ∃ k, w.status = Status.failed k op) : SameReads u w := by
  obtain ⟨k, hk⟩ := hu
  obtain ⟨l, hl⟩ := hw
  have hcause : k.cause = l.cause := by
    have := h.cause he
    rwa [hk, hl] at this
  have hstatus : u.status = w.status := by
    rw [hk, hl, Status.failed, Status.failed, hcause]
  have hnot_done : u.status.state ≠ .done := hk ▸ BlockState.noConfusion
  exact .of_status hstatus h.len (absurd · hnot_done) (absurd · hnot_done) (absurd · hnot_done)

/-! ## The same command on the same image (42 R103) -/

protected theorem SameImage.commandRun {s t : State} (h : SameImage s t) (hsnap : Memory.total s.len s.snap) :
    ∃ u w, commandRun s = .next u ∧ commandRun t = .next w ∧ SameReads u w ∧ SameImage s u := by
  have hstarted : SameImage (s.setStatus (Status.inProgress .run)) (t.setStatus (Status.inProgress .run)) := { h with }
  have hbegun : SameRun (beginRun s) (beginRun t) := hstarted.restore
  obtain ⟨u, w, hu, hw, hends, hends', hsame⟩ :=
    hbegun.runToEnd_ends (runFrom_beginRun hsnap) (runFrom_beginRun (h.total hsnap))
  have himage : SameImage s u := { hends.sameImage with }
  rcases hends.ended with he | he
  · refine ⟨_, _, commandRun_of_halted hu he, commandRun_of_halted hw (hsame.eng ▸ he), ?_, { himage with }⟩
    exact .of_status rfl hsame.len (fun _ _ => hsame.mem) (fun _ => nofun) (fun _ => nofun)
  · have he' : w.eng = .faulted := hsame.eng ▸ he
    exact ⟨u, w, commandRun_of_faulted hu he, commandRun_of_faulted hw he',
      .of_failed hsame he (hends.status_of_faulted he) (hends'.status_of_faulted he'), himage⟩

protected theorem SameImage.commandExec {s t : State} (h : SameImage s t) (hsnap : Memory.total s.len s.snap)
    (n v : Nat) :
    ∃ u w, commandExec n v s = .next u ∧ commandExec n v t = .next w ∧ SameReads u w ∧ SameImage s u := by
  have hbegun : SameImage (startExec n v s) (startExec n v t) := { h with }
  obtain ⟨u, w, hu, hw, hends, hends', hsame, hout⟩ := hbegun.execOnce hsnap n v
  have himage : SameImage s u := { hends.sameImage with }
  rcases hends.ended with ⟨he, -⟩ | ⟨he, hf⟩
  · refine ⟨_, _, commandExec_of_halted hu he, commandExec_of_halted hw (hsame.eng ▸ he), ?_, { himage with }⟩
    exact .of_status rfl hsame.len (fun _ => nofun) (fun _ _ => hout he) (fun _ => nofun)
  · have he' : w.eng = .faulted := hsame.eng ▸ he
    exact ⟨u, w, commandExec_of_faulted hu he, commandExec_of_faulted hw he',
      .of_failed hsame he hf (hends'.status_of_faulted he'), himage⟩

/-- The blocks are at the same point of a search of the same image for the same target. -/
structure SameSearch (s t : State) : Prop extends SameImage s t where
  status_left : s.status = Status.inProgress .search
  status_right : t.status = Status.inProgress .search
  target : s.target = t.target
  result : s.result = t.result

namespace SameSearch

section
variable {s t : State} (h : SameSearch s t) (hsnap : Memory.total s.len s.snap)
include h hsnap

/-- The iterations of the same pair: both searches go on, with the same output, or both fail. -/
theorem iteration (n v : Nat) : ∃ u w, execOnce n v (setPair n v s) = .next u ∧
    execOnce n v (setPair n v t) = .next w ∧ SameImage s u ∧
    ((u.eng = .halted ∧ w.eng = .halted ∧ SameSearch u w ∧ u.out = w.out ∧ SameReads (matched u) (matched w)) ∨
      (u.eng = .faulted ∧ w.eng = .faulted ∧ SameReads u w)) := by
  have hbegun : SameImage (setPair n v s) (setPair n v t) := { h with }
  obtain ⟨u, w, hu, hw, hends, hends', hsame, hout⟩ := hbegun.execOnce hsnap n v
  have himage : SameImage s u := { hends.sameImage with }
  refine ⟨u, w, hu, hw, himage, ?_⟩
  rcases hends.ended with ⟨he, hstatus⟩ | ⟨he, hf⟩
  · have he' : w.eng = .halted := hsame.eng ▸ he
    have hafter : SameImage u w := (himage.symm.trans h.toSameImage).trans { hends'.sameImage with }
    have hpair : SearchResult.ofPair u.noun u.verb = SearchResult.ofPair w.noun w.verb := by
      rw [hends.noun, hends.verb, hends'.noun, hends'.verb]
      rfl
    have hnext : SameSearch u w :=
      { hafter with
        status_left := hstatus.trans h.status_left
        status_right := (hends'.status_of_halted he').trans h.status_right
        target := hends.target.trans (h.target.trans hends'.target.symm)
        result := hends.result.trans (h.result.trans hends'.result.symm) }
    exact .inl ⟨he, he', hnext, hout he,
      .of_status rfl hsame.len (fun _ => nofun) (fun _ _ => hout he) (fun _ _ => hpair)⟩
  · have he' : w.eng = .faulted := hsame.eng ▸ he
    have hop : t.status.op = s.status.op := by rw [h.status_left, h.status_right]
    exact .inr ⟨he, he', .of_failed hsame he hf (hop ▸ hends'.status_of_faulted he')⟩

end

/-- The searches go through the pairs that are left side by side. (With none left it takes equal outputs to end alike:
those of the last iterations.) -/
protected theorem searchLoop {pairs : List (Nat × Nat)} {s t : State} (h : SameSearch s t)
    (hsnap : Memory.total s.len s.snap) (hout : pairs = [] → s.out = t.out) :
    ∃ u w, searchLoop pairs s = .next u ∧ searchLoop pairs t = .next w ∧ SameReads u w ∧ SameImage s u := by
  induction pairs generalizing s t with
  | nil =>
    exact ⟨_, _, rfl, rfl, .of_status rfl h.len (fun _ => nofun) (fun _ _ => hout rfl) (fun _ _ => h.result),
      { SameImage.refl s with }⟩
  | cons p pairs ih =>
    obtain ⟨u, w, hu, hw, himage, ⟨he, he', hnext, hout, hmatched⟩ | ⟨he, he', hreads⟩⟩ := h.iteration hsnap p.1 p.2
    · by_cases hmatch : u.out = u.target
      · have hmatch' : w.out = w.target := by rw [← hout, ← hnext.target, hmatch]
        exact ⟨_, _, searchLoop_of_match hu he hmatch, searchLoop_of_match hw he' hmatch', hmatched, { himage with }⟩
      · have hmatch' : w.out ≠ w.target := by rwa [← hout, ← hnext.target]
        obtain ⟨u', w', hu', hw', hreads, himage'⟩ := ih hnext (himage.total hsnap) fun _ => hout
        exact ⟨u', w', (searchLoop_of_miss hu he hmatch).trans hu', (searchLoop_of_miss hw he' hmatch').trans hw',
          hreads, himage.trans himage'⟩
    · exact ⟨u, w, searchLoop_of_faulted hu he, searchLoop_of_faulted hw he', hreads, himage⟩

end SameSearch

theorem searchPairs_ne_nil : searchPairs ≠ [] := List.ne_nil_of_length_pos (by rw [searchPairs_length]; decide)

protected theorem SameImage.commandSearch {s t : State} (h : SameImage s t) (hsnap : Memory.total s.len s.snap)
    (g : Nat) :
    ∃ u w, commandSearch g s = .next u ∧ commandSearch g t = .next w ∧ SameReads u w ∧ SameImage s u := by
  have hstarted : SameSearch (startSearch g s) (startSearch g t) :=
    { h with status_left := rfl, status_right := rfl, target := rfl, result := rfl }
  obtain ⟨u, w, hu, hw, hreads, himage⟩ := hstarted.searchLoop hsnap (absurd · searchPairs_ne_nil)
  exact ⟨u, w, hu, hw, hreads, { himage with }⟩

/-- Any command that keeps the image: its outcome is the same in both blocks. -/
protected theorem SameImage.command {s t : State} (h : SameImage s t) (hsnap : Memory.total s.len s.snap) {c : Command}
    (hkeeps : c.keepsImage = true) (hc : c.representable s.params = true) :
    ∃ u w, command c s = .next u ∧ command c t = .next w ∧ SameReads u w ∧ SameImage s u := by
  cases c with
  | load => cases hkeeps
  | run => exact h.commandRun hsnap
  | exec n v =>
    obtain ⟨hn, hv⟩ : s.params.fits n = true ∧ s.params.fits v = true := by simpa [Command.representable] using hc
    rw [command_exec hn hv, command_exec (h.params ▸ hn) (h.params ▸ hv)]
    exact h.commandExec hsnap n v
  | search g => exact h.commandSearch hsnap g

/-- Settles O58: the two blocks hold the same image. -/
theorem outcomeDependsOnImageAndCommand : Obligations.OutcomeDependsOnImageAndCommand := by
  intro s t c hs _ _ _ hp hlen hread hkeeps hc
  obtain ⟨u, w, hu, hw, hreads, -⟩ := SameImage.command ⟨hp, hlen, hread⟩ hs.snapTotal hkeeps hc
  exact ⟨u, w, hu, hw, hreads⟩

/-- A list of commands that keep the image keeps it (20 R49). -/
theorem commandSeq_sameImage {cs : List Command} {s : State} (hsnap : Memory.total s.len s.snap)
    (hcs : ∀ c ∈ cs, c.keepsImage = true ∧ c.representable s.params = true) :
    ∃ t, commandSeq cs s = .next t ∧ SameImage s t := by
  induction cs generalizing s with
  | nil => exact ⟨s, rfl, .refl s⟩
  | cons c cs ih =>
    obtain ⟨⟨hkeeps, hc⟩, hrest⟩ := List.forall_mem_cons.mp hcs
    obtain ⟨t, -, ht, -, -, himage⟩ := (SameImage.refl s).command hsnap hkeeps hc
    obtain ⟨u, hu, himage'⟩ := ih (himage.total hsnap) (himage.params ▸ hrest)
    exact ⟨u, by rw [commandSeq_cons, ht, onNext, hu], himage.trans himage'⟩

/-- Settles O54: the commands between keep the image, so the second time the block holds what it held the first time. -/
theorem commandsAreRepeatable : Obligations.CommandsAreRepeatable := by
  intro s c between hs _ hkeeps hc hbetween
  have hsnap := hs.snapTotal
  obtain ⟨t, -, ht, -, -, himage⟩ := (SameImage.refl s).command hsnap hkeeps hc
  obtain ⟨u, hu, himage'⟩ := commandSeq_sameImage (himage.total hsnap) (himage.params ▸ hbetween)
  obtain ⟨t', v, ht', hv, hreads, -⟩ := (himage.trans himage').command hsnap hkeeps hc
  cases ht.symm.trans ht'
  exact ⟨t, u, v, ht, hu, hv, hreads⟩

end Sys2Proof.Machine
end

section
/-!
EXEC against RUN, and SEARCH against EXEC (spec 42_run_exec_search.md R104, R105).
-/
namespace Sys2Proof.Machine

/-! ## What the host reads after a command (10 R32) -/

section
variable {s : State} {k : FaultKind} {op : Op} (h : s.status = Status.failed k op)
include h

theorem readOut_of_failed : readOut s = none := by simp [readOut, h, Status.failed]

theorem readMem_of_failed (a : Nat) : readMem a s = none := by simp [readMem, h, Status.failed]

theorem readResult_of_failed : readResult s = none := by simp [readResult, h, Status.failed]

theorem readAnswer_of_failed : readAnswer s = none := by simp [readAnswer, h, Status.failed]

end

section
variable {s : State} {found : Bool} (h : s.status = Status.completed .search found)
include h

theorem readOut_of_completed_search : readOut s = some s.out := by simp [readOut, h, Status.completed]

theorem readResult_of_completed_search : readResult s = some s.result := by simp [readResult, h, Status.completed]

theorem readAnswer_of_completed_search : readAnswer s = some s.result.answer := by
  simp [readAnswer, h, Status.completed]

end

theorem readOut_of_completed_exec (s : State) : readOut (s.setStatus (Status.completed .exec false)) = some s.out := rfl

theorem readMem_of_completed_run {s : State} {a : Nat} (ha : a < s.len) :
    readMem a (s.setStatus (Status.completed .run false)) = s.mem.read a := if_pos ⟨rfl, rfl, ha⟩

/-! ## EXEC against RUN (42 R104) -/

theorem getElem?_set_injected {image : List Nat} (hlen : 3 ≤ image.length) (n v a : Nat) :
    ((image.set 1 n).set 2 v)[a]? = if a = 2 then some v else if a = 1 then some n else image[a]? := by
  simp only [List.getElem?_set, List.length_set, eq_comm (b := a), show 1 < image.length by omega,
    show 2 < image.length by omega, if_true]

/-- The image with its cells 1 and 2 replaced, restored, is the image restored with the two values injected. -/
theorem sameRun_injected (s : State) {image : List Nat} (hlen : 3 ≤ image.length) (n v : Nat) :
    SameRun (beginIteration n v (startExec n v (load image s)))
      (beginRun (load ((image.set 1 n).set 2 v) s)) := by
  have hlong : 3 ≤ (startExec n v (load image s)).len := hlen
  have hrunning := (beginIteration_running (n := n) (v := v) hlong).1
  have hlength : image.length = ((image.set 1 n).set 2 v).length := by simp
  refine ⟨?_, ?_, ?_, hrunning, fun a ha => ?_, fun he => absurd (hrunning.symm.trans he) Engine.noConfusion⟩
  · exact beginIteration_params _ _ _
  · exact (beginIteration_len _ _ _).trans hlength
  · exact beginIteration_pc _ _ _
  · rw [beginIteration_len] at ha
    have ha' : a < ((image.set 1 n).set 2 v).length := hlength ▸ ha
    have hexec : (load image s).snap.read a = image[a]? := (Memory.read_image s.snap image a).trans (if_pos ha)
    have hrun : (load ((image.set 1 n).set 2 v) s).snap.read a = ((image.set 1 n).set 2 v)[a]? :=
      (Memory.read_image s.snap _ a).trans (if_pos ha')
    calc (beginIteration n v (startExec n v (load image s))).mem.read a
      _ = if a = 2 then some v else if a = 1 then some n else (load image s).snap.read a := beginIteration_read hlong ha
      _ = (load ((image.set 1 n).set 2 v) s).snap.read a := by rw [hexec, hrun, getElem?_set_injected hlen]
      _ = (beginRun (load ((image.set 1 n).set 2 v) s)).mem.read a :=
        (restore_read_below (s := (load ((image.set 1 n).set 2 v) s).setStatus (Status.inProgress .run)) ha').symm

/-- Settles O55: the two runs begin at the same moment, so they end alike. -/
theorem execAgreesWithRun : Obligations.ExecAgreesWithRun := by
  intro s image n v hlen hn hv
  obtain ⟨t, u, ht, hu, hends, hends', hsame⟩ := (sameRun_injected s hlen n v).runToEnd_ends
    (runFrom_beginIteration (s := startExec n v (load image s)) (Memory.total_image s.snap image) n v)
    (runFrom_beginRun (s := load ((image.set 1 n).set 2 v) s) (Memory.total_image s.snap _))
  rw [command_exec (s := load image s) hn hv]
  rcases hends.cases with ⟨he, -, o, ho⟩ | ⟨he, k, hk⟩
  · have he' : u.eng = .halted := hsame.eng ▸ he
    have hpos : 0 < t.len := hends.len ▸ hends.nonempty he
    refine ⟨_, _, commandExec_of_halted (execOnce_of_halted ht he ho) he, commandRun_of_halted hu he', rfl, rfl, ?_,
      .inl rfl⟩
    rw [readOut_of_completed_exec, readMem_of_completed_run (hsame.len ▸ hpos), ← hsame.mem 0 hpos, ho]
    rfl
  · have he' : u.eng = .faulted := hsame.eng ▸ he
    obtain ⟨l, hl⟩ := hends'.status_of_faulted he'
    refine ⟨_, _, commandExec_of_faulted (execOnce_of_faulted ht he) he, commandRun_of_faulted hu he', ?_,
      hsame.cause he, ?_, .inr (hk ▸ rfl)⟩
    · rw [hk, hl]
      rfl
    · rw [readOut_of_failed hk, readMem_of_failed hl]

/-! ## SEARCH against EXEC (42 R105) -/

/-- An iteration of a search, and what the EXEC of its pair reports. -/
theorem execOnce_report {s x : State} (h : SameImage x s) (hsnap : Memory.total x.len x.snap) (n v : Nat) :
    ∃ t, execOnce n v (setPair n v x) = .next t ∧ IterationEnds (setPair n v x) t ∧
      ((t.eng = .halted ∧ execReport n v s = some (some t.out, .none)) ∨
        (t.eng = .faulted ∧ ∃ k, t.status = Status.failed k x.status.op ∧
          execReport n v s = some (none, k.cause))) := by
  have hbegun : SameImage (setPair n v x) (startExec n v s) := { h with }
  obtain ⟨t, u, ht, hu, hends, hends', hsame, hout⟩ := hbegun.execOnce hsnap n v
  refine ⟨t, ht, hends, ?_⟩
  rcases hends.ended with ⟨he, -⟩ | ⟨he, k, hk⟩
  · refine .inl ⟨he, ?_⟩
    rw [execReport, commandExec_of_halted hu (hsame.eng ▸ he), hout he]
    rfl
  · have he' : u.eng = .faulted := hsame.eng ▸ he
    obtain ⟨l, hl⟩ := hends'.status_of_faulted he'
    have hcause : u.status.cause = k.cause := (hsame.cause he).symm.trans (hk ▸ rfl)
    refine .inr ⟨he, k, hk, ?_⟩
    rw [execReport, commandExec_of_faulted hu he']
    simp only [readOut_of_failed hl, hcause]

/-- The EXEC of pair `p` ends DONE, with another output than `g`. -/
def ReportsOther (s : State) (g : Nat) (p : Nat × Nat) : Prop :=
  ∃ x, x ≠ g ∧ execReport p.1 p.2 s = some (some x, .none)

/-- How a search for `g` through `pairs` ends in `t`, told from the EXEC of each pair on the image of `s`. -/
inductive SearchEnds (s : State) (g : Nat) (pairs : List (Nat × Nat)) (t : State) : Prop where
  /-- The first pair whose EXEC does not end DONE with another output gives `g`. -/
  | found (before : List (Nat × Nat)) (p : Nat × Nat) (after : List (Nat × Nat))
    (hpairs : pairs = before ++ p :: after) (hbefore : ∀ q ∈ before, ReportsOther s g q)
    (hreport : execReport p.1 p.2 s = some (some g, .none)) (hstatus : t.status = Status.completed .search true)
    (hresult : t.result = SearchResult.ofPair p.1 p.2) (hout : t.out = g)
  /-- No pair is left. -/
  | exhausted (hall : ∀ q ∈ pairs, ReportsOther s g q) (hstatus : t.status = Status.completed .search false)
    (hresult : t.result = SearchResult.reset)
  /-- The first pair whose EXEC does not end DONE with another output fails. -/
  | failed (before : List (Nat × Nat)) (p : Nat × Nat) (after : List (Nat × Nat))
    (hpairs : pairs = before ++ p :: after) (hbefore : ∀ q ∈ before, ReportsOther s g q)
    (k : FaultKind) (hreport : execReport p.1 p.2 s = some (none, k.cause))
    (hstatus : t.status = Status.failed k .search)

theorem SearchEnds.cons {s t : State} {g : Nat} {p : Nat × Nat} {pairs : List (Nat × Nat)} (hp : ReportsOther s g p)
    (h : SearchEnds s g pairs t) : SearchEnds s g (p :: pairs) t := by
  have hcons {before : List (Nat × Nat)} (hbefore : ∀ q ∈ before, ReportsOther s g q) :
      ∀ q ∈ p :: before, ReportsOther s g q := List.forall_mem_cons.mpr ⟨hp, hbefore⟩
  cases h with
  | found before q after hpairs hbefore hreport hstatus hresult hout =>
    exact .found (p :: before) q after (hpairs ▸ rfl) (hcons hbefore) hreport hstatus hresult hout
  | exhausted hall hstatus hresult => exact .exhausted (hcons hall) hstatus hresult
  | failed before q after hpairs hbefore k hreport hstatus =>
    exact .failed (p :: before) q after (hpairs ▸ rfl) (hcons hbefore) k hreport hstatus

theorem searchLoop_ends {s x : State} (h : SameImage x s) (hsnap : Memory.total x.len x.snap)
    (hstatus : x.status = Status.inProgress .search) (hresult : x.result = SearchResult.reset)
    (pairs : List (Nat × Nat)) : ∃ t, searchLoop pairs x = .next t ∧ SearchEnds s x.target pairs t := by
  induction pairs generalizing x with
  | nil => exact ⟨_, rfl, .exhausted nofun rfl hresult⟩
  | cons p pairs ih =>
    obtain ⟨t, ht, hends, ⟨he, hreport⟩ | ⟨he, k, hk, hreport⟩⟩ := execOnce_report h hsnap p.1 p.2
    · have htarget : t.target = x.target := hends.target
      by_cases hmatch : t.out = t.target
      · refine ⟨_, searchLoop_of_match ht he hmatch, .found [] p pairs rfl nofun ?_ rfl ?_ (hmatch.trans htarget)⟩
        · rw [hreport, hmatch, htarget]
        · rw [matched_result, hends.noun, hends.verb, setPair_noun, setPair_verb]
      · have himage : SameImage x t := { hends.sameImage with }
        obtain ⟨u, hu, hrest⟩ := ih (himage.symm.trans h) (himage.total hsnap)
          ((hends.status_of_halted he).trans hstatus) (hends.result.trans hresult)
        rw [htarget] at hrest hmatch
        exact ⟨u, (searchLoop_of_miss ht he (htarget ▸ hmatch)).trans hu, hrest.cons ⟨t.out, hmatch, hreport⟩⟩
    · exact ⟨t, searchLoop_of_faulted ht he, .failed [] p pairs rfl nofun k hreport (by rw [hk, hstatus]; rfl)⟩

/-- Where the list of pairs is cut, the numbers of the pairs say. -/
theorem searchPairs_split {before after : List (Nat × Nat)} {p : Nat × Nat} (h : searchPairs = before ++ p :: after) :
    before.length < 9801 ∧ p = pairAt before.length ∧ ∀ j, j < before.length → pairAt j ∈ before := by
  have hlt : before.length < 9801 := by
    have hlength := congrArg List.length h
    rw [searchPairs_length, List.length_append, List.length_cons] at hlength
    omega
  refine ⟨hlt, ?_, fun j hj => ?_⟩
  · have hp := searchPairs_getElem? hlt
    rw [h, List.getElem?_append_right (Nat.le_refl _), Nat.sub_self] at hp
    exact Option.some.inj hp
  · have hp := searchPairs_getElem? (Nat.lt_trans hj hlt)
    rw [h, List.getElem?_append_left hj] at hp
    exact List.mem_of_getElem? hp

/-- `ANSWER` of a pair that fits the fields of `RESULT` (10 R29). -/
theorem SearchResult.answer_ofPair {n v : Nat} (hn : n < 2 ^ 7) (hv : v < 2 ^ 7) :
    (SearchResult.ofPair n v).answer = BitVec.ofNat 14 (100 * n + v) := by
  rw [SearchResult.answer, SearchResult.ofPair, BitVec.toNat_ofNat, BitVec.toNat_ofNat, Nat.mod_eq_of_lt hn,
    Nat.mod_eq_of_lt hv]

theorem pairAt_lt {k : Nat} (hk : k < 9801) : (pairAt k).1 < 99 ∧ (pairAt k).2 < 99 :=
  ⟨by simp only [pairAt]; omega, Nat.mod_lt _ (by decide)⟩

/-- Settles O56: the end of the search through all pairs, with each pair named by its number. -/
theorem searchAgreesWithExec : Obligations.SearchAgreesWithExec := by
  intro s g hs _
  have himage : SameImage (startSearch g s) s := { SameImage.refl s with }
  obtain ⟨t, ht, hends⟩ := searchLoop_ends himage hs.snapTotal rfl rfl searchPairs
  refine ⟨t, ht, ?_⟩
  cases hends with
  | found before p after hpairs hbefore hreport hstatus hresult hout =>
    obtain ⟨hk, rfl, hmem⟩ := searchPairs_split hpairs
    obtain ⟨hn, hv⟩ := pairAt_lt hk
    refine .inl ⟨before.length, hk, hreport, fun j hj => hbefore _ (hmem j hj), hstatus, ?_, ?_, ?_⟩
    · rw [readResult_of_completed_search hstatus, hresult]
    · rw [readAnswer_of_completed_search hstatus, hresult, SearchResult.answer_ofPair (by omega) (by omega)]
    · rw [readOut_of_completed_search hstatus, hout]
      rfl
  | exhausted hall hstatus hresult =>
    refine .inr (.inl ⟨fun j hj => hall _ (List.mem_of_getElem? (searchPairs_getElem? hj)), hstatus, ?_, ?_⟩)
    · rw [readResult_of_completed_search hstatus, hresult]
      rfl
    · rw [readAnswer_of_completed_search hstatus, hresult]
      rfl
  | failed before p after hpairs hbefore k hreport hstatus =>
    obtain ⟨hk, rfl, hmem⟩ := searchPairs_split hpairs
    exact .inr (.inr ⟨before.length, k, hk, hreport, fun j hj => hbefore _ (hmem j hj), hstatus,
      readResult_of_failed hstatus, readAnswer_of_failed hstatus, readOut_of_failed hstatus⟩)

end Sys2Proof.Machine
end

section
/-!
Faults (spec 60_exceptions.md R109, R115 to R119): the entry of a fault, the first condition of the fault table that
holds, and the block that waits for its host once no command is in progress.
-/
namespace Sys2Proof.Machine

/-! ## The entry of a fault (R117) -/

/-- Settles O21: a fault is entered by writing these two fields. -/
theorem faultEntryWritesEngineAndStatus : Obligations.FaultEntryWritesEngineAndStatus := fun _ _ => rfl

/-! ## The fault table, row by row (R115) -/

/-- Two rows one after another with the same answer are one row. -/
theorem if_else_if_same {α : Type} {p q : Prop} [Decidable p] [Decidable q] (a b : α) :
    (if p then a else if q then a else b) = if p ∨ q then a else b := by
  by_cases hp : p
  · rw [if_pos hp, if_pos (.inl hp)]
  · rw [if_neg hp]
    exact ite_congr (propext (or_iff_right hp).symm) (fun _ => rfl) (fun _ => rfl)

section
variable {s : State}

theorem faultTable_beyond (hpc : s.len ≤ s.pc) : faultTable s = some .boundary := if_pos hpc

theorem faultTable_unrecognized (hpc : s.pc < s.len) (hop : s.cell s.pc ≠ 1 ∧ s.cell s.pc ≠ 2 ∧ s.cell s.pc ≠ 99) :
    faultTable s = some .processing := by
  rw [faultTable, if_neg (Nat.not_le.mpr hpc), if_pos hop]

theorem faultTable_halt (hpc : s.pc < s.len) (hop : s.cell s.pc = 99) : faultTable s = none := by
  rw [faultTable, if_neg (Nat.not_le.mpr hpc), if_neg (fun ⟨_, _, hne⟩ => hne hop), if_pos hop]

/-- The rows of an ADD or MUL: its five bounds before the result, the overflow, the bound of the destination. -/
theorem faultTable_computes (hpc : s.pc < s.len) (hop : s.cell s.pc = 1 ∨ s.cell s.pc = 2) :
    faultTable s =
      if s.len ≤ s.pc + 3 ∨ s.len ≤ s.cell (s.pc + 1) ∨ s.len ≤ s.cell (s.pc + 2) then some .boundary
      else if s.params.fits s.exactResult = false then some .overflow
      else if s.len ≤ s.cell (s.pc + 3) then some .boundary
      else none := by
  have hknown : ¬(s.cell s.pc ≠ 1 ∧ s.cell s.pc ≠ 2 ∧ s.cell s.pc ≠ 99) := by omega
  have hhalt : s.cell s.pc ≠ 99 := by omega
  rw [faultTable, if_neg (Nat.not_le.mpr hpc), if_neg hknown, if_neg hhalt]
  rw [if_else_if_same, if_else_if_same, if_else_if_same, if_else_if_same]
  exact ite_congr (propext (by omega)) (fun _ => rfl) (fun _ => rfl)

theorem State.exactResult_add (hop : s.cell s.pc = 1) :
    s.exactResult = aluAdd (s.cell (s.cell (s.pc + 1))) (s.cell (s.cell (s.pc + 2))) := if_pos hop

theorem State.exactResult_mul (hop : s.cell s.pc = 2) :
    s.exactResult = aluMul (s.cell (s.cell (s.pc + 1))) (s.cell (s.cell (s.pc + 2))) :=
  if_neg (by rw [hop]; decide)

end

/-! ## The engine step reports what the table says (R115) -/

/-- `t` follows from an engine step of `s` that reports the fault `r`, or no fault. -/
def StepReports (r : Option FaultKind) (s t : State) : Prop :=
  match r with
  | some k => FaultedBy k s t
  | none => t.eng = (if s.cell s.pc = 99 then .halted else .running) ∧ t.status = s.status

/-- ADD and MUL make the table's tests in the table's order, and keep `ENG` and `STATUS` when none of them holds. -/
theorem ComputesAtCursor.reports_faultTable {alu : Nat → Nat → Nat} {s t : State} (he : s.eng = .running)
    (hpc : s.pc < s.len) (hop : s.cell s.pc = 1 ∨ s.cell s.pc = 2)
    (hresult : s.exactResult = alu (s.cell (s.cell (s.pc + 1))) (s.cell (s.cell (s.pc + 2))))
    (h : ComputesAtCursor alu s t) : StepReports (faultTable s) s t := by
  rw [faultTable_computes hpc hop, hresult]
  unfold ComputesAtCursor at h
  by_cases hreads : s.len ≤ s.pc + 3 ∨ s.len ≤ s.cell (s.pc + 1) ∨ s.len ≤ s.cell (s.pc + 2)
  · rw [if_pos hreads] at h ⊢
    exact h
  rw [if_neg hreads] at h ⊢
  by_cases hover : s.params.fits (alu (s.cell (s.cell (s.pc + 1))) (s.cell (s.cell (s.pc + 2)))) = false
  · rw [if_pos hover] at h ⊢
    exact h
  rw [if_neg hover] at h ⊢
  by_cases hdest : s.len ≤ s.cell (s.pc + 3)
  · rw [if_pos hdest] at h ⊢
    exact h
  rw [if_neg hdest] at h ⊢
  obtain ⟨-, hframe⟩ := h
  have hhalt : s.cell s.pc ≠ 99 := by omega
  exact ⟨(congrArg State.eng hframe :).trans (he.trans (if_neg hhalt).symm), (congrArg State.status hframe :)⟩

/-- One case for each arm of the dispatch, after the bound of the cursor. -/
theorem engineStep_reports_faultTable {s : State} (hm : Memory.total s.len s.mem) (he : s.eng = .running) :
    ∃ t, engineStep s = .next t ∧ StepReports (faultTable s) s t := by
  by_cases hpc : s.len ≤ s.pc
  · rw [faultTable_beyond hpc]
    exact fetchPastTheEndFaults s hpc
  replace hpc := Nat.not_le.mp hpc
  have hread := State.read_eq_some_cell hm hpc
  rcases opcodeKind_cases (s.cell s.pc) with ⟨hop, -⟩ | ⟨hop, -⟩ | ⟨hop, -⟩ | ⟨⟨h1, h2, h99⟩, -⟩
  · obtain ⟨t, ht, hadd⟩ := addWholeRule s hm hpc hop
    exact ⟨t, ht, ComputesAtCursor.reports_faultTable he hpc (.inl hop) (State.exactResult_add hop) hadd⟩
  · obtain ⟨t, ht, hmul⟩ := mulWholeRule s hm hpc hop
    exact ⟨t, ht, ComputesAtCursor.reports_faultTable he hpc (.inr hop) (State.exactResult_mul hop) hmul⟩
  · obtain ⟨t, ht, hframe, -⟩ := haltReadsOneCell s hpc (hop ▸ hread)
    rw [faultTable_halt hpc hop]
    exact ⟨t, ht, (congrArg State.eng hframe :).trans (if_pos hop).symm, (congrArg State.status hframe :)⟩
  · rw [faultTable_unrecognized hpc ⟨h1, h2, h99⟩]
    exact unrecognizedRaisesProcessingError s _ hpc hread h1 h2 h99

/-- Settles O24: the report of the table, spelled out. -/
theorem faultPriorityTable : Obligations.FaultPriorityTable := fun _ => engineStep_reports_faultTable

/-! ## No command in progress (R119, 70 R130) -/

theorem step_of_host_nil {s : State} (hh : s.host = []) : step s = advance s := by
  simp only [step, blockStep, hh]

/-- A state without a command in progress or a move of the host pending is a fixed point of the step. -/
theorem step_of_quiet {s : State} (h : s.Quiet) : step s = .next s := by
  obtain ⟨hb, hh⟩ := h
  rw [step_of_host_nil hh]
  rcases advance_cases s with ⟨hb', -⟩ | ⟨hb', -⟩ | ⟨hb', -⟩ | ⟨-, e⟩
  · exact absurd hb' hb
  · exact absurd hb' hb
  · exact absurd hb' hb
  · exact e

theorem stepN_of_quiet {s : State} (h : s.Quiet) (n : Nat) : stepN n s = .next s := by
  induction n with
  | zero => rfl
  | succ n ih => rw [stepN, step_of_quiet h, onNext, ih]

/-- Settles O26: such a block is quiet. -/
theorem blockWaitsForTheHost : Obligations.BlockWaitsForTheHost := fun n _ hb hh => stepN_of_quiet ⟨hb, hh⟩ n

end Sys2Proof.Machine
end

section
/-!
Reset and hazards (spec 70_reset_and_hazards.md R129, R130, R134, R139): RESET in any state, the EXEC that no host can
send, and the image whose first instruction is a HALT.
-/
namespace Sys2Proof.Machine

/-! ## RESET (R129, R130) -/

theorem step_reset {s : State} {rest : List HostMove} (hh : s.host = .reset :: rest) :
    step s = .next (hardReset (s.setHost rest)) := by
  simp only [step, blockStep, hh]

/-- Settles O32: the step is the hardware reset, whatever the status and the engine. -/
theorem resetActsInAnyState : Obligations.ResetActsInAnyState := fun s rest hh =>
  ⟨hardReset (s.setHost rest), step_reset hh, rfl, rfl, rfl, rfl, rfl, rfl, rfl, rfl, rfl, rfl, rfl⟩

/-! ## An EXEC with an argument that is no cell value (R134, log 9) -/

theorem accept_exec_tooWide {n v : Nat} {s : State} (h : s.params.fits n = false ∨ s.params.fits v = false) :
    accept (.exec n v) s = .refused .argumentTooWide := by
  refine if_neg fun hfits => ?_
  obtain ⟨hn, hv⟩ := Bool.and_eq_true_iff.mp hfits
  rcases h with hw | hw
  · cases hn.symm.trans hw
  · cases hv.symm.trans hw

/-- Settles O38: the command is taken up, and refused there. -/
theorem unrepresentableExecIsRefused : Obligations.UnrepresentableExecIsRefused := fun _ _ _ _ hb hh hw =>
  (step_issue hb hh).trans (accept_exec_tooWide hw)

/-! ## An image whose first instruction is a HALT (R139) -/

theorem engineStep_halt {s : State} (hpc : s.pc < s.len) (hv : s.mem.read s.pc = some 99) :
    engineStep s = .next ((s.setIr (s.ir.load .halt)).setEng .halted) :=
  engineStepOf_holdsAtCursor (holdsAtCursor_halt hpc hv)

/-- A run whose cursor stands at a HALT ends with that step. -/
theorem runToEnd_halt {s : State} (he : s.eng = .running) (hpc : s.pc < s.len) (hv : s.mem.read s.pc = some 99) :
    runToEnd s = .next ((s.setIr (s.ir.load .halt)).setEng .halted) :=
  calc runToEnd s
      = engineLoop (s.len / 4) ((s.setIr (s.ir.load .halt)).setEng .halted) :=
        engineLoop_succ_running he (engineStep_halt hpc hv) _
    _ = .next ((s.setIr (s.ir.load .halt)).setEng .halted) := engineLoop_of_not_running Engine.noConfusion _

/-- An iteration of such an image halts with the opcode itself as its output: the injection leaves address 0. -/
theorem execOnce_halt_image {s : State} (hlen : 3 ≤ s.len) (h0 : s.snap.read 0 = some 99) (n v : Nat) :
    ∃ t, execOnce n v s = .next t ∧ t.eng = .halted ∧ t.out = 99 := by
  have hlt : 0 < s.len := by omega
  have hcell : (beginIteration n v s).mem.read 0 = some 99 := (beginIteration_read hlen hlt).trans h0
  have hrun := runToEnd_halt (beginIteration_running (n := n) (v := v) hlen).1 (by simpa using hlt) (by simpa using hcell)
  exact ⟨_, execOnce_of_halted hrun rfl hcell, rfl, rfl⟩

theorem execReport_of_halted {s t : State} {n v : Nat} (h : execOnce n v (startExec n v s) = .next t)
    (he : t.eng = .halted) : execReport n v s = some (some t.out, .none) := by
  rw [execReport, commandExec_of_halted h he]
  rfl

/-- Settles O57: the first step of the iteration halts, and its output is the 99 at address 0. -/
theorem haltImageIgnoresNounAndVerb : Obligations.HaltImageIgnoresNounAndVerb := by
  intro s n v hlen h0
  obtain ⟨t, ht, he, hout⟩ := execOnce_halt_image (s := startExec n v s) hlen h0 n v
  rw [execReport_of_halted ht he, hout]

end Sys2Proof.Machine
end
